-- ==== Sys2Proof/Word.lean ====
section
/-! DEFINITION. The widths of the block's values (00_scope.md R5, 10_state.md R29). -/

namespace Sys2Proof

/-- A command word W and a response VALUE: CMD_BITS = VALUE_BITS = 32 (R5, R70, R73). -/
abbrev Word := BitVec 32

/-- A GF(256) symbol, a soft channel symbol and a payload byte: SYMBITS = 8 (R5, R51). -/
abbrev Byte := BitVec 8

/-- A generator polynomial of the convolutional code, K = 9 taps (R110). -/
abbrev Poly := BitVec 9

/-- The handle field CTX = W[27:24] (R30, R75). -/
abbrev Handle := BitVec 4

/-- A trellis state as an 8-bit shift register, bit 0 the newest input bit (R130). -/
abbrev TrellisState := BitVec 8

/-- A path metric: METRIC_BITS = 16, two's complement, read as a signed integer by `toInt` (R34, R147). -/
abbrev Metric := BitVec 16

/-- A decision record: bit s belongs to trellis state s (R35). -/
abbrev Record := BitVec 256

/-- One polynomial's row of the branch table: bit i is BT[k][i] (R28). -/
abbrev BranchRow := BitVec 128

/-- A metric bank: one metric for each of the NSTATES = 256 trellis states (R34). -/
abbrev Bank := Vector Metric 256

/-- A 256-entry table of bytes: ALPHA_TO and INDEX_OF (R21, R22). -/
abbrev Table := Vector Byte 256

end Sys2Proof
end

