-- ==== Sys2Proof/Config.lean ====
section
/-! DEFINITION. The fixed parameters (00_scope.md R5) and the configuration record of open parameters
(00_scope.md R6, 10_state.md R20 to R24). The configuration is not state of the block: no command writes it. -/

namespace Sys2Proof

/-- NN = 255: the RS block length and the modulus of log-domain addition (R5). -/
abbrev NN : Nat := 255

/-- A0 = 255: the sentinel that stands for the logarithm of zero (R5, R22). -/
abbrev A0 : Byte := 255#8

/-- BM_MAX = 765: the sum of the two complementary branch metrics (R5). -/
abbrev BM_MAX : Nat := 765

/-- TAIL = 8: the look-past margin in steps, K - 1 (R5). -/
abbrev TAIL : Nat := 8

/-- METRIC_MIN = -32768 (R5). -/
abbrev METRIC_MIN : Int := -32768

/-- METRIC_MAX = 32767 (R5). -/
abbrev METRIC_MAX : Int := 32767

/-- INIT_BIAS = 5000 (R5). -/
abbrev INIT_BIAS : Int := 5000

/-- SPREAD = 12750, the source's maximum per-step metric spread (R5). -/
abbrev SPREAD : Int := 12750

/-- RENORM_THRESHOLD = METRIC_MAX - SPREAD = 20017 (R5). -/
abbrev RENORM_THRESHOLD : Int := METRIC_MAX - SPREAD

/-- The open parameters of one block (R6). NROOTS is the length of GENPOLY (log 13). -/
structure Config where
  /-- ALPHA_TO, the antilog table; entry 255 is never read (R21). -/
  alphaTo   : Table
  /-- INDEX_OF, the log table; entry 0 is the sentinel A0 (R22). -/
  indexOf   : Table
  /-- GENPOLY in index (log) form, entry j the logarithm of the coefficient of x^j (R23). -/
  genpoly   : List Byte
  /-- NCTX, the number of contexts (R6). -/
  nctx      : Nat
  /-- HIST_DEPTH, the decision records one context's history can hold (R6). -/
  histDepth : Nat
deriving DecidableEq, Repr

/-- NROOTS, the number of parity symbols: GENPOLY has NROOTS entries (R23). -/
def Config.nroots (cfg : Config) : Nat := cfg.genpoly.length

/-- Byte `e` of a table written as sixteen rows of sixteen bytes, the first byte of a row leftmost
(the printed form of 95_test_vectors.md §2.1). -/
def tableOfRows (rows : Vector (BitVec 128) 16) : Table :=
  Vector.ofFn fun e : Fin 256 =>
    (rows[e.val / 16]'(by have := e.isLt; omega)).extractLsb' (8 * (15 - e.val % 16)) 8

/-- ALPHA_TO of configuration T2 (95_test_vectors.md §2.1). -/
def alphaToT2 : Table := tableOfRows #v[
  0x01020408102040801d3a74e8cd871326#128, 0x4c982d5ab475eac98f03060c183060c0#128,
  0x9d274e9c254a94356ad4b577eec19f23#128, 0x468c050a142850a05dba69d2b96fdea1#128,
  0x5fbe61c2992f5ebc65ca890f1e3c78f0#128, 0xfde7d3bb6bd6b17ffee1dfa35bb671e2#128,
  0xd9af4386112244880d1a3468d0bd67ce#128, 0x811f3e7cf8edc7933b76ecc5973366cc#128,
  0x85172e5cb86ddaa94f9e214284152a54#128, 0xa84d9a2952a455aa49923972e4d5b773#128,
  0xe6d1bf63c6913f7efce5d7b37bf6f1ff#128, 0xe3dbab4b963162c495376edca557ae41#128,
  0x82193264c88d070e1c3870e0dda753a6#128, 0x51a259b279f2f9efc39b2b56ac458a09#128,
  0x122448903d7af4f5f7f3fbebcb8b0b16#128, 0x2c58b07dfae9cf831b366cd8ad478e00#128]

/-- INDEX_OF of configuration T2 (95_test_vectors.md §2.1). -/
def indexOfT2 : Table := tableOfRows #v[
  0xff00011902321ac603df33ee1b68c74b#128, 0x0464e00e348def811cc169f8c8084c71#128,
  0x058a652fe1240f2135938edaf0128245#128, 0x1db5c27d6a27f9b9c99a09784de472a6#128,
  0x06bf8b6266dd30fde29825b310912288#128, 0x36d094ce8f96dbbdf1d2135c83384640#128,
  0x1e42b6a3c3487e6e6b3a2854fa85ba3d#128, 0xca5e9b9f0a15792b4ed4e5ac73f3a757#128,
  0x0770c0f78c80630d674adeed31c5fe18#128, 0xe3a5997726b8b47c114492d92320892e#128,
  0x373fd15b95bccfcd908797b2dcfcbe61#128, 0xf256d3ab142a5d9e843c3953476d41a2#128,
  0x1f2d43d8b77ba476c41749ec7f0c6ff6#128, 0x6ca13b52299d55aafb6086b1bbcc3e5a#128,
  0xcb595fb09ca9a0510bf516eb7a752cd7#128, 0x4faed5e9e6e7ade874d6f4eaa85058af#128]

/-- Configuration T2 of 95_test_vectors.md §2.1 with that file's usual NCTX = 2 and HIST_DEPTH = 600 (§3).
DESIGN CHOICE, unsafe for a claim about `State.reset` alone: the spec leaves these parameters open (R6);
`State.reset` has to carry some well-formed configuration, and statements quantify over all (log 2). -/
def Config.t2 : Config where
  alphaTo   := alphaToT2
  indexOf   := indexOfT2
  genpoly   := [3#8, 26#8]
  nctx      := 2
  histDepth := 600

end Sys2Proof
end

