-- ==== Sys2Proof/Syntax.lean ====
section
/-! DEFINITION. The seven commands (00_scope.md R3) and the reasons a word spells none (30_encoding.md R78, R79). -/

namespace Sys2Proof

/-- One constructor per row of spec/opcode_table.json. Operands have the widths of R74 and are unsigned (R75).
The payload is no part of the word (R72): it stands in the machine's state. -/
inductive Instr where
  /-- `SETPOLY p0, p1, p2` (R110). -/
  | setpoly (p0 p1 p2 : Poly)
  /-- `CREATE len` (R114). -/
  | create (len : BitVec 24)
  /-- `INIT ctx, start` (R116). -/
  | init (ctx : Handle) (start : TrellisState)
  /-- `UPDATE ctx, nsteps, [symbol bytes]` (R141). -/
  | update (ctx : Handle) (nsteps : BitVec 24)
  /-- `CHAINBACK ctx, nbits, endstate` (R161). -/
  | chainback (ctx : Handle) (nbits : BitVec 16) (endstate : TrellisState)
  /-- `DESTROY ctx` (R118). -/
  | destroy (ctx : Handle)
  /-- `RS_ENCODE pad, [data bytes]` (R91). -/
  | rsEncode (pad : Byte)
deriving DecidableEq, Repr

/-- Why a word spells no command. -/
inductive Illegal where
  /-- OP is 0x0 or 0x8 to 0xF (R78). -/
  | reservedOp
  /-- OP is 0x1 to 0x7 and a must-be-zero bit of its format is set (R79). -/
  | mustBeZero
deriving DecidableEq, Repr

end Sys2Proof
end

