-- ==== Sys2Proof/WellFormed.lean ====
section
/-! DEFINITION. What must hold before the rules are meant: the configuration's well-formedness (10_state.md R24,
00_scope.md R6) and a command's shape, its payload length against its word (20_memory.md R55).
The operands themselves need no check: their widths are in the types of `Instr` (30_encoding.md R74, R75). -/

namespace Sys2Proof

/-- R24 (a): 1 <= NROOTS <= 254. -/
abbrev Config.nrootsOk (cfg : Config) : Prop := 1 ≤ cfg.nroots ∧ cfg.nroots ≤ 254

/-- R24 (b): INDEX_OF[0] = 255; for x from 1 to 255, INDEX_OF[x] <= 254 and ALPHA_TO[INDEX_OF[x]] = x. -/
abbrev Config.logOk (cfg : Config) : Prop :=
  cfg.indexOf[0] = A0 ∧
  ∀ x : Fin 256, x.val ≠ 0 →
    cfg.indexOf[x].toNat ≤ 254 ∧ (cfg.alphaTo[cfg.indexOf[x].toNat]'(cfg.indexOf[x].isLt)).toNat = x.val

/-- R24 (c): for e from 0 to 254, ALPHA_TO[e] is not 0 and INDEX_OF[ALPHA_TO[e]] = e. -/
abbrev Config.antilogOk (cfg : Config) : Prop :=
  ∀ e : Fin 256, e.val ≤ 254 →
    cfg.alphaTo[e] ≠ 0#8 ∧ (cfg.indexOf[cfg.alphaTo[e].toNat]'(cfg.alphaTo[e].isLt)).toNat = e.val

/-- R24 (d): GENPOLY[j] <= 254 for every j. -/
abbrev Config.genpolyOk (cfg : Config) : Prop := ∀ g ∈ cfg.genpoly, g.toNat ≤ 254

/-- R6: NCTX is 1 to 16. HIST_DEPTH is any natural number. -/
abbrev Config.nctxOk (cfg : Config) : Prop := 1 ≤ cfg.nctx ∧ cfg.nctx ≤ 16

/-- Well-formedness of the configuration: R24 (a) to (d) and the ranges of R6. -/
abbrev Config.wf (cfg : Config) : Prop :=
  cfg.nrootsOk ∧ cfg.logOk ∧ cfg.antilogOk ∧ cfg.genpolyOk ∧ cfg.nctxOk

/-- The shape a command's payload must have for its word (R55): UPDATE takes exactly 3 x NSTEPS bytes, RS_ENCODE
exactly NN - NROOTS - PAD (so PAD is at most NN - NROOTS, R92), every other command none. -/
abbrev Instr.shapeOk (i : Instr) (cfg : Config) (payLen : Nat) : Prop :=
  match i with
  | .setpoly _ _ _ => payLen = 0
  | .create _ => payLen = 0
  | .init _ _ => payLen = 0
  | .update _ nsteps => payLen = 3 * nsteps.toNat
  | .chainback _ _ _ => payLen = 0
  | .destroy _ => payLen = 0
  | .rsEncode pad => payLen + cfg.nroots + pad.toNat = NN

end Sys2Proof
end

