-- ==== Sys2Proof/Decode.lean ====
section
/-! DEFINITION. Decoding and encoding of command words (30_encoding.md R74 to R79). -/

namespace Sys2Proof

/-- OP = W[31:28] (R74). -/
def opField (w : Word) : BitVec 4 := w.extractLsb' 28 4

/-- A word spells a row's command exactly when `W AND mask = match` (R76). -/
def spells (w mask value : Word) : Bool := w &&& mask == value

/-- Why a word that matches no row is illegal: by its OP (R78) or by a must-be-zero bit (R79). -/
def illegalReason (w : Word) : Illegal :=
  if opField w = 0 ∨ 8 ≤ (opField w).toNat then .reservedOp else .mustBeZero

/-- The decoder: the seven match/mask pairs of R76, the fields of R74 taken directly from their bits (R75);
total, and a function of W alone (R77). -/
def decode (w : Word) : Except Illegal Instr :=
  if spells w 0xF8000000#32 0x10000000#32 then
    .ok (.setpoly (w.extractLsb' 0 9) (w.extractLsb' 9 9) (w.extractLsb' 18 9))
  else if spells w 0xFF000000#32 0x20000000#32 then
    .ok (.create (w.extractLsb' 0 24))
  else if spells w 0xF0FFFF00#32 0x30000000#32 then
    .ok (.init (w.extractLsb' 24 4) (w.extractLsb' 0 8))
  else if spells w 0xF0000000#32 0x40000000#32 then
    .ok (.update (w.extractLsb' 24 4) (w.extractLsb' 0 24))
  else if spells w 0xF0000000#32 0x50000000#32 then
    .ok (.chainback (w.extractLsb' 24 4) (w.extractLsb' 8 16) (w.extractLsb' 0 8))
  else if spells w 0xF0FFFFFF#32 0x60000000#32 then
    .ok (.destroy (w.extractLsb' 24 4))
  else if spells w 0xFFFFFF00#32 0x70000000#32 then
    .ok (.rsEncode (w.extractLsb' 0 8))
  else .error (illegalReason w)

/-- The encoder: the formats P, L, S, U, T, D, E of R74, most significant field first. -/
def encode (i : Instr) : Word :=
  match i with
  | .setpoly p0 p1 p2 => 1#4 ++ 0#1 ++ p2 ++ p1 ++ p0
  | .create len => 2#4 ++ 0#4 ++ len
  | .init ctx start => 3#4 ++ ctx ++ 0#16 ++ start
  | .update ctx nsteps => 4#4 ++ ctx ++ nsteps
  | .chainback ctx nbits endstate => 5#4 ++ ctx ++ nbits ++ endstate
  | .destroy ctx => 6#4 ++ ctx ++ 0#24
  | .rsEncode pad => 7#4 ++ 0#20 ++ pad

/-- The match and mask of an instruction's row (R76). -/
def opcodeRow (i : Instr) : Word × Word :=
  match i with
  | .setpoly _ _ _ => (0x10000000#32, 0xF8000000#32)
  | .create _ => (0x20000000#32, 0xFF000000#32)
  | .init _ _ => (0x30000000#32, 0xF0FFFF00#32)
  | .update _ _ => (0x40000000#32, 0xF0000000#32)
  | .chainback _ _ _ => (0x50000000#32, 0xF0000000#32)
  | .destroy _ => (0x60000000#32, 0xF0FFFFFF#32)
  | .rsEncode _ => (0x70000000#32, 0xFFFFFF00#32)

/-- The command word whose bits, numbered as the opcode table numbers them, are `w`; bits at or above `nbits`
are zero. One command length: 32 bits (R70). -/
def tableWord (nbits w : Nat) : Word := BitVec.ofNat 32 (w % 2 ^ nbits)

/-- The instruction the decoder reads from `tableWord nbits w`. -/
def decodeTableWord (nbits w : Nat) : Option Instr :=
  match decode (tableWord nbits w) with
  | .ok i => some i
  | .error _ => none

end Sys2Proof
end

