-- ==== Sys2Proof/Machine/State.lean ====
section
/-! DEFINITION. The state of the block, its command channel, the reasons a step can stop, and the state after reset
(10_state.md R25 to R40, 30_encoding.md R70 to R73). -/

namespace Sys2Proof.Machine

open Sys2Proof

/-- STATUS of a response (60_exceptions.md R175); `Status.code` of Ops.lean gives the numbers. -/
inductive Status where
  | ok
  /-- "Invalid handle" (R176). -/
  | errHandle
  /-- "Allocation failure" (R177). -/
  | errAlloc
  /-- "Precondition violation" (R178). -/
  | errPrecond
  /-- The word spells no command (R179). -/
  | errIllegal
deriving DecidableEq, Repr

/-- A command: the word W, a 32-bit value and never a byte sequence (R54 (e); log 11), and its payload, whose length is
PAYLEN (R70, R72). -/
structure Command where
  word    : Word
  payload : List Byte
deriving DecidableEq, Repr

/-- What the host can do to the block. DESIGN CHOICE, safe: the reset event carries the command it cuts off (log 6). -/
inductive Input where
  /-- Issue a command (R70). -/
  | command (c : Command)
  /-- Apply reset (R200), between commands or during one, which then gives no response and has no effect. -/
  | reset (cutOff : Option Command)
deriving DecidableEq, Repr

/-- A response: STATUS, VALUE and payload (R73). -/
structure Response where
  status  : Status
  value   : Word
  payload : List Byte
deriving DecidableEq, Repr

/-- A history memory HIST[c]: (index, record) pairs, indexes strictly rising, no zero record listed; an unlisted index
reads as the zero record. DESIGN CHOICE, unsafe: R40 leaves unwritten records unspecified; no response depends on
them (logs 8, 12). -/
abbrev Memory := List (Nat × Record)

/-- The canonical form of a history memory. -/
abbrev Memory.wf (m : Memory) : Prop :=
  List.Pairwise (fun a b => a.1 < b.1) m ∧ ∀ e ∈ m, e.2 ≠ 0#256

/-- A context: the state of one decoder (R30). -/
structure Context where
  /-- ALLOC[c] (R27). -/
  alloc  : Bool
  /-- INITED[c] (R27). -/
  inited : Bool
  /-- LEN[c], the decision records the context may use (R31). -/
  len    : BitVec 24
  /-- DP[c], the history cursor (R32). -/
  dp     : BitVec 25
  /-- SEL[c], which bank is "old" (R33). -/
  sel    : Fin 2
  /-- MET[c][b][s] (R34). -/
  met    : Vector Bank 2
  /-- HIST[c][t] (R35). -/
  hist   : Memory
deriving DecidableEq, Repr

/-- The state of one FEC core. `cfg` is the read-only configuration, which no step changes (R20; log 1).
`pending`, `payIn` and `responses` are the command channel (R70 to R73; log 3). -/
structure State where
  cfg       : Config
  /-- BT[k][i], one branch table for all contexts (R28). -/
  bt        : Vector BranchRow 3
  /-- BT_VALID (R27). -/
  btValid   : Bool
  /-- PARITY[0 .. NROOTS-1], entry 0 the highest power (R25). -/
  parity    : List Byte
  /-- The contexts 0 .. NCTX-1 (R30). -/
  ctxs      : List Context
  /-- PayIn[0 .. PAYLEN-1], the payload of the command being executed (R51). -/
  payIn     : List Byte
  /-- The inputs issued and not yet taken, oldest first (R71). -/
  pending   : List Input
  /-- The responses issued, oldest first (R73). -/
  responses : List Response
deriving DecidableEq, Repr

/-- Why a step stops with a fault. -/
inductive Fault where
  /-- HIST would be indexed at or above HIST_DEPTH, where it has no record (R35, R56). Raised by UPDATE and CHAINBACK.
  DESIGN CHOICE, safe: only in states with LEN[c] or DP[c] above HIST_DEPTH, which no run reaches (log 10). -/
  | historyOutOfRange (index : Nat)
deriving DecidableEq, Repr

/-- Why a step has no meaning. -/
inductive Refusal where
  /-- An arm of `exec` that has no meaning yet; none is left. Safe: nothing can be proved of such an instruction. -/
  | notModelled (mnemonic : String)
deriving DecidableEq, Repr

/-- A context after reset: ALLOC = INITED = 0 (R40). DESIGN CHOICE, unsafe: the spec leaves LEN, DP, SEL, MET and HIST
unspecified; the model holds zeros, and no response depends on them (logs 7, 8). -/
def Context.reset : Context where
  alloc  := false
  inited := false
  len    := 0#24
  dp     := 0#25
  sel    := 0
  met    := Vector.replicate 2 (Vector.replicate 256 0#16)
  hist   := []

/-- The state after reset of a block with configuration `cfg` (R40, R200): BT_VALID = 0, every context FREE, the channel
idle. DESIGN CHOICE, unsafe: BT and PARITY, which the spec leaves unspecified, are zero (log 7). -/
def State.resetOf (cfg : Config) : State where
  cfg       := cfg
  bt        := Vector.replicate 3 0#128
  btValid   := false
  parity    := List.replicate cfg.nroots 0#8
  ctxs      := List.replicate cfg.nctx Context.reset
  payIn     := []
  pending   := []
  responses := []

/-- The state after reset of the block with configuration `Config.t2` (log 2). -/
def State.reset : State := State.resetOf Config.t2

end Sys2Proof.Machine
end

