-- ==== Sys2Proof/Machine/Ops.lean ====
section
/-! DEFINITION. The named operations over the block's state: history memory, metric banks, contexts, the response channel,
ending a command with an error status, reset, and the integer helpers of 00_scope.md R8, R10. -/

namespace Sys2Proof.Machine

open Sys2Proof

/-- What a meaning answers. -/
abbrev Result := Host.Outcome State Fault Refusal

/-! ### Integer helpers (R8, R10) -/

/-- `parity1(v)`: whether `v` has an odd number of 1 bits (R8). -/
def parity1 {n : Nat} (v : BitVec n) : Bool :=
  (List.range n).countP (fun j => v.getLsbD j) % 2 == 1

/-- `modnn(v) = v mod 255` (R10). -/
def modnn (v : Nat) : Nat := v % NN

/-- `modnn` answers 0 to 254, so ALPHA_TO[255] is never read (R10, R21). -/
theorem modnn_lt (v : Nat) : modnn v < 255 := Nat.mod_lt v (by decide)

/-- `sat16(v) = min(v, 32767)` (R10). -/
def sat16 (v : Int) : Int := min v METRIC_MAX

/-- The 16-bit two's complement metric of an integer in range (R34, R147). -/
def metricOf (v : Int) : Metric := BitVec.ofInt 16 v

/-! ### History memory HIST[c] (R35, R50) -/

/-- `HIST[c][t]`, a whole record; an unlisted record is zero (log 8). -/
def Memory.read : Memory → Nat → Record
  | [], _ => 0#256
  | (u, q) :: rest, t => if u = t then q else Memory.read rest t

/-- `HIST[c][t] <- r`, keeping the canonical form (log 12). -/
def Memory.write : Memory → Nat → Record → Memory
  | [], t, r => if r = 0#256 then [] else [(t, r)]
  | (u, q) :: rest, t, r =>
    if t < u then
      if r = 0#256 then (u, q) :: rest else (t, r) :: (u, q) :: rest
    else if t = u then
      if r = 0#256 then rest else (t, r) :: rest
    else (u, q) :: Memory.write rest t r

/-- `HIST[c][t][s]`, the decision of state `s` in record `t`: the one read width the rules use (R50). -/
def Memory.readBit (m : Memory) (t : Nat) (s : TrellisState) : Bool := (m.read t).getLsbD s.toNat

/-- Whether the `count` records from `first` on lie below HIST_DEPTH (R35, R56). -/
def histInRange (cfg : Config) (first count : Nat) : Bool :=
  count == 0 || first + count ≤ cfg.histDepth

/-! ### Metric banks (R33, R34, R139) -/

/-- The metric of state `s` as a signed integer (R147 (a)). -/
def bankAt (b : Bank) (s : Fin 256) : Int := b[s].toInt

/-- The old bank MET[c][SEL[c]] (R33). -/
def Context.oldBank (k : Context) : Bank := k.met[k.sel]

/-- The index of the new bank, 1 - SEL[c] (R33). -/
def Context.newSel (k : Context) : Fin 2 := 1 - k.sel

/-- The least metric of a bank (R142, R147 (d)). -/
def bankMin (b : Bank) : Int := b.toList.foldl (fun lo m => min lo m.toInt) (bankAt b 0)

/-! ### Contexts (R30) -/

/-- Replace context `c`. -/
def State.setCtx (s : State) (c : Nat) (k : Context) : State := { s with ctxs := s.ctxs.set c k }

/-! ### Responses (R73, R175, R180) -/

/-- The STATUS code of a status (R175). -/
def Status.code (st : Status) : BitVec 4 :=
  match st with
  | .ok => 0#4
  | .errHandle => 1#4
  | .errAlloc => 2#4
  | .errPrecond => 3#4
  | .errIllegal => 4#4

/-- Issue the response of the command being executed; the block is idle again (R73, `respond` of R9). -/
def State.send (s : State) (r : Response) : State :=
  { s with payIn := [], responses := s.responses ++ [r] }

/-- `respond(OK, value, payload)`: end the command successfully (R9). -/
def respond (value : Word) (payload : List Byte) (s : State) : Result :=
  .next (s.send ⟨.ok, value, payload⟩)

/-- `raise <Status>`: end the command with an error status, VALUE = 0, no payload and no other effect
(R9, R73, R180). The block has no other exception; there is nothing to return from (R181, R185). -/
def raise (st : Status) (s : State) : Result :=
  .next (s.send ⟨st, 0#32, []⟩)

/-! ### Taking the next input (R71, R200) -/

/-- Take a command off the channel: its payload becomes PayIn (R51, R71). -/
def State.accept (s : State) (c : Command) (rest : List Input) : State :=
  { s with payIn := c.payload, pending := rest }

/-- The reset event: the state of R40; the configuration, the inputs not yet taken and the responses already issued
stand (R200, R201; logs 6, 7). -/
def State.applyReset (s : State) (rest : List Input) : State :=
  { State.resetOf s.cfg with pending := rest, responses := s.responses }

end Sys2Proof.Machine
end

