-- ==== Sys2Proof/Machine/Operands.lean ====
section
/-! DEFINITION. How a command's operands name state: handles (41_viterbi_lifecycle.md R112), the payload
(20_memory.md R51, R54) and butterfly indexes (42_viterbi_update.md R130 to R132). -/

namespace Sys2Proof.Machine

open Sys2Proof

/-- PAYLEN, the length of the payload in bytes (R51). -/
def State.payLen (s : State) : Nat := s.payIn.length

/-- The context a handle names, when the handle is valid: h < NCTX and ALLOC[h] = 1 (R112). -/
def State.validCtx? (s : State) (h : Handle) : Option Context :=
  if h.toNat < s.cfg.nctx then
    match s.ctxs[h.toNat]? with
    | some k => if k.alloc then some k else none
    | none => none
  else none

/-- The least c in 0 .. NCTX-1 with ALLOC[c] = 0, if there is one (R114, R115). -/
def State.freeCtx? (s : State) : Option Nat :=
  (s.ctxs.take s.cfg.nctx).findIdx? (fun k => !k.alloc)

/-- The symbol triples of an UPDATE payload, in time order: bytes 3t, 3t + 1, 3t + 2 are step t's symbols for polynomials
0, 1, 2 (R54 (b)). -/
def symbolTriples : List Byte → List (Vector Byte 3)
  | a :: b :: c :: rest => #v[a, b, c] :: symbolTriples rest
  | _ => []

/-- The lower predecessor of butterfly i: state i (R132). -/
def lowPred (i : Fin 128) : Fin 256 := ⟨i.val, by have := i.isLt; omega⟩

/-- The upper predecessor of butterfly i: state i + 128 (R132). -/
def highPred (i : Fin 128) : Fin 256 := ⟨i.val + 128, by have := i.isLt; omega⟩

/-- The butterfly that writes successor state s: s >> 1 (R130, R132). -/
def butterflyOf (s : Fin 256) : Fin 128 := ⟨s.val / 2, by have := s.isLt; omega⟩

/-- Whether successor s is the odd one, 2i + 1, reached by input bit 1 (R130, R132). -/
def isOdd (s : Fin 256) : Bool := s.val % 2 == 1

/-- A trellis state as an index into a bank (R34). -/
def stateIndex (s : TrellisState) : Fin 256 := ⟨s.toNat, s.isLt⟩

end Sys2Proof.Machine
end

