-- ==== Sys2Proof/Machine/Flags.lean ====
section
/-! DEFINITION. The flags BT_VALID, ALLOC and INITED (10_state.md R27): who sets and clears them, and the conditions the
commands test (60_exceptions.md R178). There are no arithmetic condition codes (R27). -/

namespace Sys2Proof.Machine

open Sys2Proof

/-- CREATE's effect on the chosen context: ALLOC <- 1, INITED <- 0, LEN <- len; the other fields are not written and are
unspecified until INIT and UPDATE write them (R114; log 9). -/
def Context.allocate (k : Context) (len : BitVec 24) : Context :=
  { k with alloc := true, inited := false, len := len }

/-- DESTROY's effect on a valid context: ALLOC <- 0, INITED <- 0; nothing else is written (R118; log 9). -/
def Context.release (k : Context) : Context := { k with alloc := false, inited := false }

/-- A failed UPDATE's effect: INITED <- 0 and nothing else (R145, R180). -/
def Context.invalidate (k : Context) : Context := { k with inited := false }

/-- SETPOLY's effect: the branch table, then BT_VALID <- 1 (R110). -/
def State.setBt (s : State) (bt : Vector BranchRow 3) : State := { s with bt := bt, btValid := true }

/-- Whether UPDATE's checks (2) to (5) hold: INITED[c] = 1, BT_VALID = 1, DP[c] + NSTEPS <= LEN[c] and
PAYLEN = 3 x NSTEPS (R141). -/
def State.updateReady (s : State) (k : Context) (nsteps : BitVec 24) : Bool :=
  k.inited && s.btValid && k.dp.toNat + nsteps.toNat ≤ k.len.toNat && s.payLen == 3 * nsteps.toNat

/-- Whether CHAINBACK's checks (2) to (4) hold: PAYLEN = 0, INITED[c] = 1 and NBITS + 8 <= DP[c] (R161, R162). -/
def State.chainbackReady (s : State) (k : Context) (nbits : BitVec 16) : Bool :=
  s.payLen == 0 && k.inited && nbits.toNat + TAIL ≤ k.dp.toNat

end Sys2Proof.Machine
end

