-- ==== Sys2Proof/Machine/Chainback.lean ====
section
/-! DEFINITION. The chainback unit: CHAINBACK (43_chainback.md). -/

namespace Sys2Proof.Machine

open Sys2Proof

/-- One step of the walk at record r from state S: S <- (S >> 1) OR (k << 7) with k = HIST[c][r][S] (R163). -/
def chainStep (hist : Memory) (r : Nat) (st : TrellisState) : TrellisState :=
  (st >>> 1) ||| ((BitVec.ofBool (hist.readBit r st)).setWidth 8 <<< 7)

/-- The walk for decoded bits n - 1 down to 0, writing S to output byte (bit number >> 3) after each step
(R161, R164, R165). -/
def chainWalk (hist : Memory) : (n : Nat) → TrellisState → List Byte → List Byte
  | 0, _, out => out
  | n + 1, st, out =>
    let st' := chainStep hist (n + TAIL) st
    chainWalk hist n st' (out.set (n / 8) st')

/-- ceil(NBITS / 8), the length of the response payload (R161, R165). -/
def outputLen (nbits : Nat) : Nat := (nbits + 7) / 8

/-- The decoded bytes: every byte of the buffer is written by the walk (R165). -/
def chainOutput (hist : Memory) (nbits : Nat) (endstate : TrellisState) : List Byte :=
  chainWalk hist nbits endstate (List.replicate (outputLen nbits) 0#8)

/-- The returned metric: MET[c][SEL[c]][ENDSTATE] - METRIC_MIN, a number 0 to 65535, zero-extended (R166). -/
def endMetric (k : Context) (endstate : TrellisState) : Word :=
  BitVec.ofNat 32 (bankAt k.oldBank (stateIndex endstate) - METRIC_MIN).toNat

/-- `CHAINBACK ctx, nbits, endstate` (R161, R162): no state is written. -/
def execChainback (ctx : Handle) (nbits : BitVec 16) (endstate : TrellisState) (s : State) : Result :=
  match s.validCtx? ctx with
  | none => raise .errHandle s
  | some k =>
    if s.chainbackReady k nbits then
      if histInRange s.cfg TAIL nbits.toNat then
        respond (endMetric k endstate) (chainOutput k.hist nbits.toNat endstate) s
      else .fault (.historyOutOfRange (nbits.toNat + 7))
    else raise .errPrecond s

end Sys2Proof.Machine
end

