-- ==== Sys2Proof/Machine/Lifecycle.lean ====
section
/-! DEFINITION. SETPOLY, CREATE, INIT and DESTROY (41_viterbi_lifecycle.md). -/

namespace Sys2Proof.Machine

open Sys2Proof

/-! ### SETPOLY -/

/-- One polynomial's row of the branch table: BT[k][i] = parity1((2 * i) AND Pk) for i = 0 to 127 (R111). -/
def branchRow (p : Poly) : BranchRow :=
  BitVec.ofFnLE fun i : Fin 128 => parity1 (BitVec.ofNat 9 (2 * i.val) &&& p)

/-- The branch table of three polynomials (R110, R111). -/
def branchTable (p0 p1 p2 : Poly) : Vector BranchRow 3 := #v[branchRow p0, branchRow p1, branchRow p2]

/-- `SETPOLY p0, p1, p2` (R110). No polynomial is rejected (R119). -/
def execSetpoly (p0 p1 p2 : Poly) (s : State) : Result :=
  if s.payLen ≠ 0 then raise .errPrecond s
  else respond 0#32 [] (s.setBt (branchTable p0 p1 p2))

/-! ### CREATE -/

/-- Allocate context `c` and answer its handle (R114). -/
def createAt (c : Nat) (len : BitVec 24) (s : State) : Result :=
  match s.ctxs[c]? with
  | some k => respond (BitVec.ofNat 32 c) [] (s.setCtx c (k.allocate len))
  | none => raise .errAlloc s

/-- `CREATE len` (R114, R115). -/
def execCreate (len : BitVec 24) (s : State) : Result :=
  if s.payLen ≠ 0 then raise .errPrecond s
  else if s.cfg.histDepth < len.toNat then raise .errAlloc s
  else
    match s.freeCtx? with
    | some c => createAt c len s
    | none => raise .errAlloc s

/-! ### INIT -/

/-- The metrics INIT writes to bank 0: METRIC_MIN for START, METRIC_MIN + INIT_BIAS for every other state (R116, R117). -/
def startBank (start : TrellisState) : Bank :=
  (Vector.replicate 256 (metricOf (METRIC_MIN + INIT_BIAS))).set start.toNat (metricOf METRIC_MIN) start.isLt

/-- INIT's effect on the context: SEL, DP, bank 0 and INITED; bank 1, HIST and LEN stand (R116). -/
def Context.start (k : Context) (start : TrellisState) : Context :=
  { k with sel := 0, dp := 0#25, met := k.met.set 0 (startBank start), inited := true }

/-- `INIT ctx, start` (R116). -/
def execInit (ctx : Handle) (start : TrellisState) (s : State) : Result :=
  match s.validCtx? ctx with
  | none => raise .errHandle s
  | some k =>
    if s.payLen ≠ 0 then raise .errPrecond s
    else respond 0#32 [] (s.setCtx ctx.toNat (k.start start))

/-! ### DESTROY -/

/-- `DESTROY ctx`: an invalid handle is a no-op that succeeds (R118). -/
def execDestroy (ctx : Handle) (s : State) : Result :=
  if s.payLen ≠ 0 then raise .errPrecond s
  else
    match s.validCtx? ctx with
    | none => respond 0#32 [] s
    | some k => respond 0#32 [] (s.setCtx ctx.toNat k.release)

end Sys2Proof.Machine
end

