-- ==== Sys2Proof/Machine/ReedSolomon.lean ====
section
/-! DEFINITION. The Reed-Solomon polynomial-division engine: RS_ENCODE (40_rs_encoder.md). -/

namespace Sys2Proof.Machine

open Sys2Proof

/-- INDEX_OF[x], the logarithm of x, or the sentinel A0 for 0 (R22, R90 (b)). -/
def indexOf (cfg : Config) (x : Byte) : Byte := cfg.indexOf[x.toNat]'(x.isLt)

/-- ALPHA_TO[modnn(v)]; entry 255 is never read (R21, R90 (c)). -/
def alphaTo (cfg : Config) (v : Nat) : Byte :=
  cfg.alphaTo[modnn v]'(Nat.lt_trans (modnn_lt v) (by decide))

/-- GENPOLY[j], for j below NROOTS (R23; the default stands only outside the table: log 15). -/
def genpolyAt (cfg : Config) (j : Nat) : Byte := cfg.genpoly.getD j 0#8

/-- ALPHA_TO[modnn(FEEDBACK + GENPOLY[j])]: the product of the nonzero element with logarithm `fb` by coefficient j
(R90 (c)). -/
def feedbackTimes (cfg : Config) (fb : Byte) (j : Nat) : Byte :=
  alphaTo cfg (fb.toNat + (genpolyAt cfg j).toNat)

/-- Step 2b: XOR the product by GENPOLY[NROOTS - j] into PARITY[j] for j = 1 to NROOTS - 1, unless FEEDBACK is the
sentinel (R94). -/
def addFeedback (cfg : Config) (fb : Byte) (parity : List Byte) : List Byte :=
  if fb = A0 then parity
  else parity.mapIdx fun j x => if j = 0 then x else x ^^^ feedbackTimes cfg fb (cfg.nroots - j)

/-- Step 2d: the new last entry, the product by GENPOLY[0], or 0 when FEEDBACK is the sentinel (R94). The sentinel is
tested; no table is read at an index made from it (R90 (d), R222). -/
def newLast (cfg : Config) (fb : Byte) : Byte := if fb = A0 then 0#8 else feedbackTimes cfg fb 0

/-- FEEDBACK = INDEX_OF[d XOR PARITY[0]] (step 2a of R94). -/
def feedbackOf (cfg : Config) (parity : List Byte) (d : Byte) : Byte :=
  indexOf cfg (d ^^^ parity.headD 0#8)

/-- `rs_step(d)`: one message symbol against PARITY, steps 2a to 2d; the shift of 2c drops entry 0 (R94). -/
def rsStep (cfg : Config) (parity : List Byte) (d : Byte) : List Byte :=
  let fb := feedbackOf cfg parity d
  (addFeedback cfg fb parity).tail ++ [newLast cfg fb]

/-- `rs_encode_loop()`: PARITY zeroed, then one step per payload byte in order (R95). -/
def rsParity (cfg : Config) (data : List Byte) : List Byte :=
  data.foldl (rsStep cfg) (List.replicate cfg.nroots 0#8)

/-- `RS_ENCODE pad, [data bytes]` (R91): the PAD check (R92), the payload length check (R93), the division (R95). -/
def execRsEncode (pad : Byte) (s : State) : Result :=
  if NN < s.cfg.nroots + pad.toNat then raise .errPrecond s
  else if s.payLen + s.cfg.nroots + pad.toNat ≠ NN then raise .errPrecond s
  else
    let parity := rsParity s.cfg s.payIn
    respond 0#32 parity { s with parity := parity }

end Sys2Proof.Machine
end

