-- ==== Sys2Proof/Machine/Trellis.lean ====
section
/-! DEFINITION. The trellis update: branch metrics, add-compare-select, renormalisation, UPDATE
(42_viterbi_update.md). -/

namespace Sys2Proof.Machine

open Sys2Proof

/-- One symbol's distance to the expected bit: sym XOR (255 * BT[k][i]) (R133). -/
def symbolDistance (row : BranchRow) (sym : Byte) (i : Fin 128) : Nat :=
  (sym ^^^ (if row[i] then 255#8 else 0#8)).toNat

/-- BM(i), the branch metric of butterfly i: the sum over the three polynomials (R133). -/
def branchMetric (bt : Vector BranchRow 3) (sym : Vector Byte 3) (i : Fin 128) : Nat :=
  symbolDistance bt[0] sym[0] i + symbolDistance bt[1] sym[1] i + symbolDistance bt[2] sym[2] i

/-- What one butterfly writes: a metric and a decision bit for successor 2i and for successor 2i + 1 (R135). -/
structure Survivors where
  evenMetric   : Int
  evenDecision : Bool
  oddMetric    : Int
  oddDecision  : Bool
deriving DecidableEq, Repr

/-- Compare and select between the candidate of the lower and of the upper predecessor: the lower one wins a tie
(R135). -/
def selectMin (fromLow fromHigh : Int) : Int × Bool :=
  if fromHigh < fromLow then (fromHigh, true) else (fromLow, false)

/-- Add, compare and select for one butterfly with branch metric `bm` and old metrics `low` = OLD[i] and
`high` = OLD[i + 128] (R134, R135). -/
def butterfly (bm : Nat) (low high : Int) : Survivors :=
  let m0 := sat16 (low + bm)
  let m1 := sat16 (high + (BM_MAX - bm : Int))
  let m2 := sat16 (low + (BM_MAX - bm : Int))
  let m3 := sat16 (high + bm)
  { evenMetric := (selectMin m0 m1).1, evenDecision := (selectMin m0 m1).2,
    oddMetric := (selectMin m2 m3).1, oddDecision := (selectMin m2 m3).2 }

/-- Butterfly i of one step on the old bank (R140). -/
def butterflyAt (bt : Vector BranchRow 3) (sym : Vector Byte 3) (old : Bank) (i : Fin 128) : Survivors :=
  butterfly (branchMetric bt sym i) (bankAt old (lowPred i)) (bankAt old (highPred i))

/-- The new bank after the 128 butterflies: every entry written once (R138, R139). The butterflies are independent, so
their order is no part of the result (R146; log 18). -/
def newBank (bt : Vector BranchRow 3) (sym : Vector Byte 3) (old : Bank) : Bank :=
  Vector.ofFn fun s : Fin 256 =>
    let r := butterflyAt bt sym old (butterflyOf s)
    metricOf (if isOdd s then r.oddMetric else r.evenMetric)

/-- The decision record of the step: REC[2i] = d0, REC[2i + 1] = d1 (R137). -/
def decisionRecord (bt : Vector BranchRow 3) (sym : Vector Byte 3) (old : Bank) : Record :=
  BitVec.ofFnLE fun s : Fin 256 =>
    let r := butterflyAt bt sym old (butterflyOf s)
    if isOdd s then r.oddDecision else r.evenDecision

/-- The amount a renormalisation subtracts: the global minimum minus METRIC_MIN, or 0 when the test on state 0 does not
fire (R142). -/
def renormAdjust (new : Bank) : Nat :=
  if RENORM_THRESHOLD ≤ bankAt new 0 then (bankMin new - METRIC_MIN).toNat else 0

/-- NEW[s] - adjust for every s (R142). -/
def lowerBy (adjust : Nat) (new : Bank) : Bank := new.map fun m => metricOf (m.toInt - adjust)

/-- `vit_step(c, sym0, sym1, sym2)`: one trellis advance of a context, with the accumulator ACC (R140, R142, R143).
ACC adds modulo 2^32 (R147 (f); log 14), DP in 25 bits (R32; log 17). -/
def vitStep (bt : Vector BranchRow 3) (kacc : Context × Word) (sym : Vector Byte 3) : Context × Word :=
  let k := kacc.1
  let new := newBank bt sym k.oldBank
  let adjust := renormAdjust new
  ({ k with
      hist := k.hist.write k.dp.toNat (decisionRecord bt sym k.oldBank)
      met := k.met.set k.newSel (lowerBy adjust new)
      sel := k.newSel
      dp := k.dp + 1#25 },
    kacc.2 + BitVec.ofNat 32 adjust)

/-- The steps of one UPDATE, in payload order, from ACC = 0 (R141). -/
def vitRun (bt : Vector BranchRow 3) (k : Context) (syms : List (Vector Byte 3)) : Context × Word :=
  syms.foldl (vitStep bt) (k, 0#32)

/-- UPDATE on a valid context whose checks hold: run the steps and answer ACC (R141, R144). -/
def updateRun (ctx : Handle) (k : Context) (s : State) : Result :=
  let r := vitRun s.bt k (symbolTriples s.payIn)
  respond r.2 [] (s.setCtx ctx.toNat r.1)

/-- `UPDATE ctx, nsteps, [symbol bytes]` (R141, R145). -/
def execUpdate (ctx : Handle) (nsteps : BitVec 24) (s : State) : Result :=
  match s.validCtx? ctx with
  | none => raise .errHandle s
  | some k =>
    if s.updateReady k nsteps then
      if histInRange s.cfg k.dp.toNat nsteps.toNat then updateRun ctx k s
      else .fault (.historyOutOfRange (k.dp.toNat + nsteps.toNat - 1))
    else raise .errPrecond (s.setCtx ctx.toNat k.invalidate)

end Sys2Proof.Machine
end

