-- ==== Sys2Proof/Machine/Dispatch.lean ====
section
/-! DEFINITION. One arm per command (00_scope.md R3). -/

namespace Sys2Proof.Machine

open Sys2Proof

def exec (i : Instr) (s : State) : Host.Outcome State Fault Refusal :=
  match i with
  | .setpoly p0 p1 p2 => Sys2Proof.Machine.execSetpoly p0 p1 p2 s
  | .create len => Sys2Proof.Machine.execCreate len s
  | .init ctx start => Sys2Proof.Machine.execInit ctx start s
  | .update ctx nsteps => Sys2Proof.Machine.execUpdate ctx nsteps s
  | .chainback ctx nbits endstate => Sys2Proof.Machine.execChainback ctx nbits endstate s
  | .destroy ctx => Sys2Proof.Machine.execDestroy ctx s
  | .rsEncode pad => Sys2Proof.Machine.execRsEncode pad s

end Sys2Proof.Machine
end

