-- ==== Sys2Proof/Machine/Step.lean ====
section
/-! DEFINITION. One step: the block takes the next input and runs it to completion (00_scope.md R13,
30_encoding.md R71). -/

namespace Sys2Proof.Machine

open Sys2Proof

/-- One step. With nothing pending the block waits (R200; log 4). A command is decoded from its word alone (R77); a word
that spells no command is answered ERR_ILLEGAL and its payload discarded (R78, R79, R179). -/
def step (s : State) : Host.Outcome State Fault Refusal :=
  match s.pending with
  | [] => .next s
  | .reset _ :: rest => .next (s.applyReset rest)
  | .command c :: rest =>
    match decode c.word with
    | .error _ => raise .errIllegal (s.accept c rest)
    | .ok i => exec i (s.accept c rest)

/-- `s` with the command word `w` (and an empty payload) issued as the next input, so that the very next step runs
it (log 5). -/
def State.withFetchWord (s : State) (nbits w : Nat) : State :=
  { s with pending := .command ⟨tableWord nbits w, []⟩ :: s.pending }

end Sys2Proof.Machine
end

