-- ==== Sys2Proof/Safety.lean ====
section
/-! DEFINITION. The terms claims are stated in: what parts of two states agree, the invariant of every run, which values are
specified, and the reference forms a result is compared with (sequential butterflies, trellis paths, the walk). -/

namespace Sys2Proof.Machine

open Sys2Proof

/-! ### Comparing states -/

/-- All state of the block, and its configuration, is the same (the table of 10_state.md R29). -/
def State.sameBlock (s t : State) : Prop :=
  t.cfg = s.cfg ∧ t.bt = s.bt ∧ t.btValid = s.btValid ∧ t.parity = s.parity ∧ t.ctxs = s.ctxs

/-- All state of the Viterbi engine is the same. -/
def State.sameViterbi (s t : State) : Prop := t.bt = s.bt ∧ t.btValid = s.btValid ∧ t.ctxs = s.ctxs

/-- `t` is idle again after one response `r` to the command `s` was running (R73). -/
def State.answered (s t : State) (r : Response) : Prop :=
  t.payIn = [] ∧ t.pending = s.pending ∧ t.responses = s.responses ++ [r]

/-- `s` about to run a command whose payload is `pay` (R51). -/
def State.withPayload (s : State) (pay : List Byte) : State := { s with payIn := pay }

/-! ### Metric range (70_reset_and_hazards.md R212) -/

/-- After `t` steps: states that share their bits above bit j - 1 have the same ancestors j steps back, so their metrics
differ by at most 765 j, for each j up to min(t, 8); before step 8 all metrics lie within 5000 + 765 t of each other
(the two cases of R212 (a) in a form that one step keeps). -/
def spreadOk (b : Bank) (t : Nat) : Prop :=
  (∀ j ≤ min t TAIL, ∀ p q : Fin 256, p.val / 2 ^ j = q.val / 2 ^ j → bankAt b p - bankAt b q ≤ BM_MAX * j) ∧
  (t < TAIL → ∀ p q : Fin 256, bankAt b p - bankAt b q ≤ INIT_BIAS + BM_MAX * t)

/-- R212 (b): no metric is above 30371. -/
def rangeOk (b : Bank) : Prop := ∀ p : Fin 256, bankAt b p ≤ 30371

/-! ### The invariant of every run -/

/-- What holds of each context: (ALLOC, INITED) is never (0, 1) (R113); LEN <= HIST_DEPTH while allocated (R31); DP <= LEN
while initialised (R32); the history memory is canonical and inside HIST_DEPTH (R35); the old bank is in range (R212). -/
def Context.Inv (cfg : Config) (k : Context) : Prop :=
  (k.inited = true → k.alloc = true) ∧
  (k.alloc = true → k.len.toNat ≤ cfg.histDepth) ∧
  (k.inited = true → k.dp.toNat ≤ k.len.toNat) ∧
  k.hist.wf ∧ (∀ e ∈ k.hist, e.1 < cfg.histDepth) ∧
  (k.inited = true → spreadOk k.oldBank k.dp.toNat ∧ rangeOk k.oldBank)

/-- The invariant: a well-formed configuration (R24), NROOTS parity symbols (R25), NCTX contexts (R30), each as above. -/
def State.Inv (s : State) : Prop :=
  s.cfg.wf ∧ s.parity.length = s.cfg.nroots ∧ s.ctxs.length = s.cfg.nctx ∧ ∀ k ∈ s.ctxs, k.Inv s.cfg

/-! ### Which values are specified (00_scope.md R11, 10_state.md R39, R40) -/

/-- Two contexts agree on every value the spec specifies: the flags; LEN when allocated; DP, SEL, the old bank and the
records below DP when initialised. -/
def Context.agree (k l : Context) : Prop :=
  l.alloc = k.alloc ∧ l.inited = k.inited ∧ (k.alloc = true → l.len = k.len) ∧
  (k.inited = true →
    l.dp = k.dp ∧ l.sel = k.sel ∧ l.oldBank = k.oldBank ∧ ∀ t < k.dp.toNat, l.hist.read t = k.hist.read t)

/-- Two states agree on the configuration, the inputs, the responses and every value the spec specifies. PARITY, BT before
the first SETPOLY and the unspecified fields of contexts may differ. -/
def State.agree (s t : State) : Prop :=
  t.cfg = s.cfg ∧ t.pending = s.pending ∧ t.responses = s.responses ∧ t.btValid = s.btValid ∧
  (s.btValid = true → t.bt = s.bt) ∧ List.Forall₂ Context.agree s.ctxs t.ctxs

/-! ### The butterflies one after another (42_viterbi_update.md R140, R146) -/

/-- Set bit `s` of a record. -/
def setRecordBit (r : Record) (s : Fin 256) (b : Bool) : Record :=
  if b then r ||| (1#256 <<< s.val) else r &&& ~~~(1#256 <<< s.val)

/-- The even successor 2i and the odd successor 2i + 1 of butterfly i (R132). -/
def evenSucc (i : Fin 128) : Fin 256 := ⟨2 * i.val, by have := i.isLt; omega⟩

def oddSucc (i : Fin 128) : Fin 256 := ⟨2 * i.val + 1, by have := i.isLt; omega⟩

/-- Butterfly i writes NEW[2i], NEW[2i + 1], REC[2i] and REC[2i + 1] (R140). -/
def butterflyWrite (bt : Vector BranchRow 3) (sym : Vector Byte 3) (old : Bank) (acc : Bank × Record) (i : Fin 128) :
    Bank × Record :=
  let r := butterflyAt bt sym old i
  ((acc.1.set (evenSucc i) (metricOf r.evenMetric)).set (oddSucc i) (metricOf r.oddMetric),
    setRecordBit (setRecordBit acc.2 (evenSucc i) r.evenDecision) (oddSucc i) r.oddDecision)

/-- The butterflies of one step in the order given, over whatever the new bank and the record held before. -/
def butterflyLoop (bt : Vector BranchRow 3) (sym : Vector Byte 3) (old : Bank) (order : List (Fin 128))
    (start : Bank × Record) : Bank × Record :=
  order.foldl (butterflyWrite bt sym old) start

/-! ### Trellis paths (42_viterbi_update.md R130 to R133, R144) -/

/-- The state after input bit b: the new bit enters at bit 0 and bit 7 leaves (R130). -/
def nextState (p : Fin 256) (b : Bool) : Fin 256 :=
  ⟨(2 * p.val + b.toNat) % 256, Nat.mod_lt _ (by decide)⟩

/-- The butterfly a state is a predecessor of: i for the states i and i + 128 (R132). -/
def butterflyFrom (p : Fin 256) : Fin 128 := ⟨p.val % 128, Nat.mod_lt _ (by decide)⟩

/-- The branch metric of the transition from p on input b: BM(i) on i to 2i and i + 128 to 2i + 1, 765 - BM(i) on the
other two (R133). -/
def transitionCost (bt : Vector BranchRow 3) (sym : Vector Byte 3) (p : Fin 256) (b : Bool) : Nat :=
  if (decide (128 ≤ p.val)) = b then branchMetric bt sym (butterflyFrom p)
  else BM_MAX - branchMetric bt sym (butterflyFrom p)

/-- The state a path ends in: start state p, input bits in time order. -/
def pathEnd (p : Fin 256) (bits : List Bool) : Fin 256 := bits.foldl nextState p

/-- The cost of a path against the received symbols. -/
def pathCost (bt : Vector BranchRow 3) : Fin 256 → List (Vector Byte 3) → List Bool → Nat
  | p, sym :: syms, b :: bits => transitionCost bt sym p b + pathCost bt (nextState p b) syms bits
  | _, _, _ => 0

/-! ### The walk of CHAINBACK (43_chainback.md R163, R164) -/

/-- S before the step for bit n - 1, when the walk starts at bit `nbits - 1`: the steps for bits nbits - 1 down to n are
done. -/
def walkState (hist : Memory) (nbits : Nat) (endstate : TrellisState) (n : Nat) : TrellisState :=
  (List.range (nbits - n)).foldl (fun st j => chainStep hist (nbits - 1 - j + TAIL) st) endstate

/-- Decoded bit n of a response payload: bit 7 - (n mod 8) of byte n >> 3 (R54 (c), R165). -/
def decodedBit (out : List Byte) (n : Nat) : Bool := (out.getD (n / 8) 0#8).getLsbD (7 - n % 8)

/-! ### The field behind the tables (40_rs_encoder.md R90, R96) -/

/-- The product of a field element by the coefficient with logarithm g, through the tables; 0 for the zero element (R90). -/
def tableTimes (cfg : Config) (g : Byte) (x : Byte) : Byte :=
  if x = 0#8 then 0#8 else alphaTo cfg ((indexOf cfg x).toNat + g.toNat)

/-- Multiplication by each coefficient of GENPOLY distributes over XOR, as it does in a field (R96 (c)). -/
def timesDistributes (cfg : Config) : Prop :=
  ∀ g ∈ cfg.genpoly, ∀ x y : Byte, tableTimes cfg g (x ^^^ y) = tableTimes cfg g x ^^^ tableTimes cfg g y

end Sys2Proof.Machine
end

