-- ==== Sys2Proof/Certificates/Slice0/Obligations.lean ====
section
/-! DEFINITION. The statements for the provers. Each docstring names the rules of spec/ it formalises. A statement about
states holds for every configuration: the configuration is a field of the state. -/

open Sys2Proof Sys2Proof.Machine

/-! ### Encoding (30_encoding.md) -/

/-- Decoding an encoded instruction gives it back, for every command and every value of every operand (R74, R75). -/
def Obligations.DecodeAfterEncode : Prop := ∀ i : Instr, decode (encode i) = .ok i

/-- A word that decodes is the encoding of what it decodes to: no bit of a legal word is ignored (R74, R79). -/
def Obligations.EncodeAfterDecode : Prop := ∀ (w : Word) (i : Instr), decode w = .ok i → encode i = w

/-- A word spells each command exactly when W AND mask = match for that command's row; no word matches two rows; a word
that matches none is illegal (R76, R77). -/
def Obligations.WordSpellsCommandByMaskAndMatch : Prop :=
  ∀ w : Word,
    ((∃ p0 p1 p2, decode w = .ok (.setpoly p0 p1 p2)) ↔ w &&& 0xF8000000#32 = 0x10000000#32) ∧
    ((∃ len, decode w = .ok (.create len)) ↔ w &&& 0xFF000000#32 = 0x20000000#32) ∧
    ((∃ c st, decode w = .ok (.init c st)) ↔ w &&& 0xF0FFFF00#32 = 0x30000000#32) ∧
    ((∃ c n, decode w = .ok (.update c n)) ↔ w &&& 0xF0000000#32 = 0x40000000#32) ∧
    ((∃ c n e, decode w = .ok (.chainback c n e)) ↔ w &&& 0xF0000000#32 = 0x50000000#32) ∧
    ((∃ c, decode w = .ok (.destroy c)) ↔ w &&& 0xF0FFFFFF#32 = 0x60000000#32) ∧
    ((∃ pad, decode w = .ok (.rsEncode pad)) ↔ w &&& 0xFFFFFF00#32 = 0x70000000#32) ∧
    (let rows : List (Word × Word) :=
      [(0xF8000000#32, 0x10000000#32), (0xFF000000#32, 0x20000000#32), (0xF0FFFF00#32, 0x30000000#32),
       (0xF0000000#32, 0x40000000#32), (0xF0000000#32, 0x50000000#32), (0xF0FFFFFF#32, 0x60000000#32),
       (0xFFFFFF00#32, 0x70000000#32)]
     rows.countP (fun r => w &&& r.1 == r.2) ≤ 1 ∧
     ((∃ e, decode w = .error e) ↔ rows.countP (fun r => w &&& r.1 == r.2) = 0))

/-- Every operand is its field's bits, bit by bit, at the places the seven formats give (R74, R75). -/
def Obligations.OperandsComeFromTheirFields : Prop :=
  ∀ w : Word,
    (∀ p0 p1 p2, decode w = .ok (.setpoly p0 p1 p2) →
      ∀ j < 9, p0.getLsbD j = w.getLsbD j ∧ p1.getLsbD j = w.getLsbD (9 + j) ∧ p2.getLsbD j = w.getLsbD (18 + j)) ∧
    (∀ len, decode w = .ok (.create len) → ∀ j < 24, len.getLsbD j = w.getLsbD j) ∧
    (∀ c st, decode w = .ok (.init c st) →
      (∀ j < 4, c.getLsbD j = w.getLsbD (24 + j)) ∧ ∀ j < 8, st.getLsbD j = w.getLsbD j) ∧
    (∀ c n, decode w = .ok (.update c n) →
      (∀ j < 4, c.getLsbD j = w.getLsbD (24 + j)) ∧ ∀ j < 24, n.getLsbD j = w.getLsbD j) ∧
    (∀ c n e, decode w = .ok (.chainback c n e) →
      (∀ j < 4, c.getLsbD j = w.getLsbD (24 + j)) ∧ (∀ j < 16, n.getLsbD j = w.getLsbD (8 + j)) ∧
      ∀ j < 8, e.getLsbD j = w.getLsbD j) ∧
    (∀ c, decode w = .ok (.destroy c) → ∀ j < 4, c.getLsbD j = w.getLsbD (24 + j)) ∧
    (∀ pad, decode w = .ok (.rsEncode pad) → ∀ j < 8, pad.getLsbD j = w.getLsbD j)

/-- A word is illegal because of its OP exactly when OP is 0 or 8 to 15, and because of a must-be-zero bit exactly when OP
is a command's and one of that format's listed bits is set; UPDATE and CHAINBACK have none. Either way the block answers
ERR_ILLEGAL, changes no state and discards the payload (R78, R79, R179). -/
def Obligations.IllegalWordsAreAnsweredErrIllegal : Prop :=
  (∀ w : Word,
    (decode w = .error .reservedOp ↔ (w.toNat / 2 ^ 28 = 0 ∨ 8 ≤ w.toNat / 2 ^ 28)) ∧
    (decode w = .error .mustBeZero ↔
      (w.toNat / 2 ^ 28 = 1 ∧ w.getLsbD 27 = true) ∨
      (w.toNat / 2 ^ 28 = 2 ∧ ∃ j, 24 ≤ j ∧ j ≤ 27 ∧ w.getLsbD j = true) ∨
      (w.toNat / 2 ^ 28 = 3 ∧ ∃ j, 8 ≤ j ∧ j ≤ 23 ∧ w.getLsbD j = true) ∨
      (w.toNat / 2 ^ 28 = 6 ∧ ∃ j, j ≤ 23 ∧ w.getLsbD j = true) ∨
      (w.toNat / 2 ^ 28 = 7 ∧ ∃ j, 8 ≤ j ∧ j ≤ 27 ∧ w.getLsbD j = true))) ∧
  ∀ (s : State) (c : Command) (rest : List Input) (e : Illegal),
    s.pending = .command c :: rest → decode c.word = .error e →
      ∃ t, step s = .next t ∧ s.sameBlock t ∧ t.payIn = [] ∧ t.pending = rest ∧
        t.responses = s.responses ++ [⟨.errIllegal, 0#32, []⟩]

/-- The worked encodings of R84 decode as it says. -/
def Obligations.WorkedEncodingsDecode : Prop :=
  decode 0x149F37ED#32 = .ok (.setpoly 0x1ed#9 0x19b#9 0x127#9) ∧
  decode 0x2000000C#32 = .ok (.create 12#24) ∧
  decode 0x30000000#32 = .ok (.init 0#4 0#8) ∧ decode 0x310000A5#32 = .ok (.init 1#4 0xa5#8) ∧
  decode 0x4000000C#32 = .ok (.update 0#4 12#24) ∧
  decode 0x50000400#32 = .ok (.chainback 0#4 4#16 0#8) ∧ decode 0x51000900#32 = .ok (.chainback 1#4 9#16 0#8) ∧
  decode 0x60000000#32 = .ok (.destroy 0#4) ∧
  decode 0x700000FA#32 = .ok (.rsEncode 250#8) ∧
  decode 0x30000100#32 = .error .mustBeZero ∧
  decode 0x00000000#32 = .error .reservedOp ∧ decode 0x80000000#32 = .error .reservedOp

/-! ### The command transaction and the step (30_encoding.md, 60_exceptions.md) -/

/-- When the next input is a command whose word decodes to i, a step is exec of i with the command taken off the channel
and its payload as PayIn; with nothing pending a step changes nothing (log 4). -/
def Obligations.StepRunsDecodedCommand : Prop :=
  (∀ (s : State) (c : Command) (rest : List Input) (i : Instr),
    s.pending = .command c :: rest → decode c.word = .ok i →
      step s = exec i { s with payIn := c.payload, pending := rest }) ∧
  ∀ s : State, s.pending = [] → step s = .next s

/-- Exactly one response follows every command, legal or not; when its STATUS is not OK its VALUE is 0 and its payload
empty (R73). -/
def Obligations.ExactlyOneResponsePerCommand : Prop :=
  ∀ (s t : State) (c : Command) (rest : List Input),
    s.pending = .command c :: rest → step s = .next t →
      ∃ r : Response, t.responses = s.responses ++ [r] ∧ t.pending = rest ∧ t.payIn = [] ∧
        (r.status ≠ .ok → r.value = 0#32 ∧ r.payload = [])

/-- A command that ends with a STATUS other than OK changes no state, except that an UPDATE that ends with ERR_PRECOND
clears INITED[CTX] and nothing else; so nothing is recorded of a failure (R180). -/
def Obligations.FailedCommandChangesNothing : Prop :=
  ∀ (s t : State) (c : Command) (rest : List Input) (r : Response),
    s.pending = .command c :: rest → step s = .next t → t.responses = s.responses ++ [r] → r.status ≠ .ok →
      (s.sameBlock t ∧ ¬ ∃ ctx n, decode c.word = .ok (.update ctx n) ∧ r.status = .errPrecond) ∨
      ∃ ctx n k, decode c.word = .ok (.update ctx n) ∧ r.status = .errPrecond ∧ s.validCtx? ctx = some k ∧
        t.cfg = s.cfg ∧ t.bt = s.bt ∧ t.btValid = s.btValid ∧ t.parity = s.parity ∧
        t.ctxs = s.ctxs.set ctx.toNat { k with inited := false }

/-- The five statuses and who raises them (R175): their codes are 0 to 4, so 5 to 15 are never produced; a command that decodes
never answers ERR_ILLEGAL, an undecodable word answers nothing else; ERR_HANDLE comes from INIT, UPDATE and CHAINBACK only,
ERR_ALLOC from CREATE only; and every command can answer OK and ERR_PRECOND in some state. -/
def Obligations.StatusesEachCommandCanAnswer : Prop :=
  (Status.code .ok = 0#4 ∧ Status.code .errHandle = 1#4 ∧ Status.code .errAlloc = 2#4 ∧ Status.code .errPrecond = 3#4 ∧
    Status.code .errIllegal = 4#4 ∧ ∀ st : Status, st.code.toNat ≤ 4) ∧
  (∀ (i : Instr) (s t : State) (r : Response), exec i s = .next t → t.responses = s.responses ++ [r] →
    r.status ≠ .errIllegal ∧
    (r.status = .errHandle → (∃ c st, i = .init c st) ∨ (∃ c n, i = .update c n) ∨ ∃ c n e, i = .chainback c n e) ∧
    (r.status = .errAlloc → ∃ len, i = .create len)) ∧
  (∀ (s t : State) (c : Command) (rest : List Input) (r : Response), s.pending = .command c :: rest → step s = .next t →
    t.responses = s.responses ++ [r] → (r.status = .errIllegal ↔ ∃ e, decode c.word = .error e)) ∧
  ∀ i : Instr, (∀ pad, i = .rsEncode pad → pad.toNat ≤ 254) →
    (∃ (s t : State) (v : Word) (out : List Byte), exec i s = .next t ∧ s.answered t ⟨.ok, v, out⟩) ∧
    ∃ s t : State, exec i s = .next t ∧ s.answered t ⟨.errPrecond, 0#32, []⟩

/-- A payload whose length is not the one the command requires is never accepted: with the other conditions of the command's
check order met (a valid handle where one is needed first), the response is ERR_PRECOND (R55). -/
def Obligations.WrongPayloadLengthIsRejected : Prop :=
  ∀ (i : Instr) (s : State), ¬ i.shapeOk s.cfg s.payLen →
    (∀ c, (∃ st, i = .init c st) ∨ (∃ n, i = .update c n) ∨ (∃ n e, i = .chainback c n e) → s.validCtx? c ≠ none) →
      ∃ t, exec i s = .next t ∧ s.answered t ⟨.errPrecond, 0#32, []⟩

/-- Reset: BT_VALID = 0, every context FREE, NCTX contexts, the configuration as before, no response to the command it cuts
off and none of its effects; the state after reset is such a state. The model's choice, not the spec's (log 6): the event is
an input of the channel, the inputs after it stay pending, the earlier responses stand. -/
def Obligations.ResetClearsFlagsAndKeepsConfiguration : Prop :=
  (∀ (s : State) (cut : Option Command) (rest : List Input), s.pending = .reset cut :: rest →
    ∃ t, step s = .next t ∧ t.cfg = s.cfg ∧ t.btValid = false ∧ t.ctxs.length = s.cfg.nctx ∧
      (∀ k ∈ t.ctxs, k.alloc = false ∧ k.inited = false) ∧ t.payIn = [] ∧ t.pending = rest ∧
      t.responses = s.responses) ∧
  ∀ cfg : Config, (State.resetOf cfg).cfg = cfg ∧ (State.resetOf cfg).btValid = false ∧
    (State.resetOf cfg).ctxs.length = cfg.nctx ∧
    ∀ k ∈ (State.resetOf cfg).ctxs, k.alloc = false ∧ k.inited = false

/-- No step writes the configuration (R20); only SETPOLY and reset write BT and BT_VALID, only reset clears BT_VALID
(R27, R28, R201); only RS_ENCODE and reset write PARITY (R25). -/
def Obligations.WhoWritesBlockState : Prop :=
  ∀ s t : State, step s = .next t →
    t.cfg = s.cfg ∧
    (t.bt ≠ s.bt ∨ t.btValid ≠ s.btValid →
      (∃ cut rest, s.pending = .reset cut :: rest) ∨
      (t.btValid = true ∧ ∃ c rest p0 p1 p2, s.pending = .command c :: rest ∧ decode c.word = .ok (.setpoly p0 p1 p2))) ∧
    (t.parity ≠ s.parity →
      (∃ cut rest, s.pending = .reset cut :: rest) ∨
      ∃ c rest pad, s.pending = .command c :: rest ∧ decode c.word = .ok (.rsEncode pad))

/-- Which commands write which field of a context (the written-by column of the table of R29, which also says that a field
holds what the last command wrote): ALLOC only CREATE and DESTROY; INITED only INIT, CREATE, DESTROY and a failed UPDATE; LEN
only CREATE; DP and SEL and the metrics only INIT and UPDATE; HIST only UPDATE. -/
def Obligations.WhoWritesContextState : Prop :=
  ∀ (i : Instr) (s t : State) (r : Response) (c : Nat) (k l : Context), exec i s = .next t →
    t.responses = s.responses ++ [r] → s.ctxs[c]? = some k → t.ctxs[c]? = some l →
      (l.alloc ≠ k.alloc → (∃ len, i = .create len) ∨ ∃ h, i = .destroy h) ∧
      (l.inited ≠ k.inited → (∃ h st, i = .init h st) ∨ (∃ len, i = .create len) ∨ (∃ h, i = .destroy h) ∨
        ∃ h n, i = .update h n ∧ r.status = .errPrecond) ∧
      (l.len ≠ k.len → ∃ len, i = .create len) ∧
      (l.dp ≠ k.dp ∨ l.sel ≠ k.sel ∨ l.met ≠ k.met →
        (∃ h st, i = .init h st) ∨ ∃ h n, i = .update h n ∧ r.status = .ok) ∧
      (l.hist ≠ k.hist → ∃ h n, i = .update h n ∧ r.status = .ok)

/-- A command changes no context but the one it names: the CTX of INIT, UPDATE and DESTROY, the context whose number CREATE
answers; SETPOLY, CHAINBACK and RS_ENCODE change none (R190). -/
def Obligations.CommandsLeaveOtherContextsAlone : Prop :=
  ∀ (i : Instr) (s t : State) (r : Response), exec i s = .next t → t.responses = s.responses ++ [r] →
    t.ctxs.length = s.ctxs.length ∧
    ∀ c : Nat, t.ctxs[c]? ≠ s.ctxs[c]? →
      (∃ h st, i = .init h st ∧ h.toNat = c) ∨ (∃ h n, i = .update h n ∧ h.toNat = c) ∨
      (∃ h, i = .destroy h ∧ h.toNat = c) ∨
      (∃ len, i = .create len ∧ r.status = .ok ∧ r.value = BitVec.ofNat 32 c)

/-- The lifecycle of each context c, from (ALLOC, INITED) before (k) to after (l) a command, command by command, with the status
each row names (the table of R113); that (0, 1) is never reached is part of the invariant. -/
def Obligations.LifecycleTransitions : Prop :=
  ∀ (i : Instr) (s t : State) (r : Response) (c : Nat) (k l : Context), s.cfg.wf → c < s.cfg.nctx →
    exec i s = .next t → t.responses = s.responses ++ [r] → s.ctxs[c]? = some k → t.ctxs[c]? = some l →
      match i with
      | .create _ =>
        if r.status = .ok ∧ r.value = BitVec.ofNat 32 c then k.alloc = false ∧ l.alloc = true ∧ l.inited = false
        else l.alloc = k.alloc ∧ l.inited = k.inited
      | .init h _ =>
        (h.toNat = c → k.alloc = false → r.status = .errHandle) ∧
        if h.toNat = c ∧ r.status = .ok then k.alloc = true ∧ l.alloc = true ∧ l.inited = true
        else l.alloc = k.alloc ∧ l.inited = k.inited
      | .update h n =>
        (h.toNat = c → k.alloc = false → r.status = .errHandle) ∧
        (h.toNat = c → k.alloc = true → k.inited = false → r.status = .errPrecond) ∧
        (h.toNat = c → r.status = .ok → l.dp.toNat = k.dp.toNat + n.toNat) ∧
        if h.toNat = c ∧ r.status = .errPrecond then k.alloc = true ∧ l.alloc = true ∧ l.inited = false
        else l.alloc = k.alloc ∧ l.inited = k.inited
      | .chainback h _ _ =>
        (h.toNat = c → k.alloc = false → r.status = .errHandle) ∧
        (h.toNat = c → k.alloc = true → k.inited = false → r.status = .errPrecond) ∧ l = k
      | .destroy h =>
        (h.toNat = c → k.alloc = false → s.payLen = 0 → r.status = .ok ∧ l = k) ∧
        if h.toNat = c ∧ r.status = .ok ∧ k.alloc = true then l.alloc = false ∧ l.inited = false
        else l.alloc = k.alloc ∧ l.inited = k.inited
      | .setpoly _ _ _ => l.alloc = k.alloc ∧ l.inited = k.inited
      | .rsEncode _ => l.alloc = k.alloc ∧ l.inited = k.inited

/-! ### Invariants and whole-machine rules (70_reset_and_hazards.md) -/

/-- The invariant holds after reset of every well-formed configuration, and of the one `State.reset` carries (log 2). -/
def Obligations.InvariantHoldsAtReset : Prop :=
  (∀ cfg : Config, cfg.wf → (State.resetOf cfg).Inv) ∧ State.reset.Inv

/-- Every step keeps the invariant: the lifecycle never reaches (ALLOC, INITED) = (0, 1), LEN <= HIST_DEPTH, DP <= LEN, the
history memory stays canonical and inside HIST_DEPTH, and the metrics stay within the spread and range of R212. -/
def Obligations.StepKeepsInvariant : Prop := ∀ s t : State, s.Inv → step s = .next t → t.Inv

/-- From a state that meets the invariant every step answers a next state: every index is in range (R56) and every command
terminates with a response (R223). -/
def Obligations.InvariantStatesNeverStop : Prop := ∀ s : State, s.Inv → ∃ t, step s = .next t

/-- No command reads an unspecified value: two states that agree on every specified value give the same responses and
agree again after a step, whatever PARITY, BT before the first SETPOLY, the new bank, the records at or above DP and the
fields of FREE and ALLOCATED contexts hold (R11, R39, R205). -/
def Obligations.UnspecifiedValuesAreNeverObserved : Prop :=
  ∀ s u t : State, s.Inv → u.Inv → s.agree u → step s = .next t → ∃ v, step u = .next v ∧ t.agree v

/-- Whatever inputs the host issues to a block with a well-formed configuration, in every state reached every initialised
context has its metrics within 10355 of each other and at most 30371, and no candidate sum of any next step exceeds 31136:
sat16 never clamps (R212). -/
def Obligations.ReachableMetricsNeverOverflow : Prop :=
  ∀ (cfg : Config) (inputs : List Input) (n : Nat) (s : State), cfg.wf →
    Sys2Proof.core.run n { State.resetOf cfg with pending := inputs } = .next s →
      ∀ k ∈ s.ctxs, k.inited = true →
        (∀ p q : Fin 256, bankAt k.oldBank p - bankAt k.oldBank q ≤ 10355) ∧
        (∀ p : Fin 256, METRIC_MIN ≤ bankAt k.oldBank p ∧ bankAt k.oldBank p ≤ 30371) ∧
        ∀ (bt : Vector BranchRow 3) (sym : Vector Byte 3) (p : Fin 256) (b : Bool),
          bankAt k.oldBank p + transitionCost bt sym p b ≤ 31136 ∧
          sat16 (bankAt k.oldBank p + transitionCost bt sym p b) = bankAt k.oldBank p + transitionCost bt sym p b

/-- The two engines share nothing: RS_ENCODE leaves the Viterbi engine as it is and needs none of it, and the other commands
leave PARITY as it is (R91, R97 (g)). -/
def Obligations.EnginesShareNothing : Prop :=
  (∀ (pad : Byte) (s u t : State), exec (.rsEncode pad) s = .next t →
    s.sameViterbi t ∧
    (u.cfg = s.cfg → u.payIn = s.payIn →
      ∃ v r, exec (.rsEncode pad) u = .next v ∧ t.responses = s.responses ++ [r] ∧ v.responses = u.responses ++ [r])) ∧
  ∀ (i : Instr) (s t : State), (∀ pad, i ≠ .rsEncode pad) → exec i s = .next t → t.parity = s.parity

/-- Repeating a command that may be repeated: a second CHAINBACK and a second DESTROY of an invalid handle answer the same and
change nothing; a second RS_ENCODE with the same payload answers the same; a second SETPOLY and a second INIT with the same
operands leave the same state (R57). -/
def Obligations.RepeatableCommandsRepeat : Prop :=
  (∀ (h : Handle) (n : BitVec 16) (e : TrellisState) (s t : State) (r : Response),
    exec (.chainback h n e) s = .next t → t.responses = s.responses ++ [r] →
      ∃ u, exec (.chainback h n e) (t.withPayload s.payIn) = .next u ∧ u.responses = t.responses ++ [r] ∧
        s.sameBlock u) ∧
  (∀ (h : Handle) (s t : State) (r : Response), s.validCtx? h = none →
    exec (.destroy h) s = .next t → t.responses = s.responses ++ [r] →
      ∃ u, exec (.destroy h) (t.withPayload s.payIn) = .next u ∧ u.responses = t.responses ++ [r] ∧ s.sameBlock u) ∧
  (∀ (pad : Byte) (s t : State) (r : Response),
    exec (.rsEncode pad) s = .next t → t.responses = s.responses ++ [r] →
      ∃ u, exec (.rsEncode pad) (t.withPayload s.payIn) = .next u ∧ u.responses = t.responses ++ [r]) ∧
  (∀ (p0 p1 p2 : Poly) (s t : State), exec (.setpoly p0 p1 p2) s = .next t →
    ∃ u, exec (.setpoly p0 p1 p2) (t.withPayload s.payIn) = .next u ∧ t.sameBlock u) ∧
  ∀ (h : Handle) (st : TrellisState) (s t : State), exec (.init h st) s = .next t →
    ∃ u, exec (.init h st) (t.withPayload s.payIn) = .next u ∧ t.sameBlock u

/-! ### The Reed-Solomon engine (40_rs_encoder.md) -/

/-- RS_ENCODE with PAD at most NN - NROOTS and exactly NN - NROOTS - PAD payload bytes completes, whatever the state of the
Viterbi engine: STATUS = OK, VALUE = 0, and the payload is PARITY after the whole division; nothing else changes. With any other
PAD or length it is rejected with ERR_PRECOND and no state changes, PARITY included (R91, R92, R93). -/
def Obligations.RsEncodeCompletes : Prop :=
  ∀ (pad : Byte) (s : State), s.cfg.wf →
    (pad.toNat ≤ NN - s.cfg.nroots → s.payLen = NN - s.cfg.nroots - pad.toNat →
      ∃ t, exec (.rsEncode pad) s = .next t ∧ t.cfg = s.cfg ∧ s.sameViterbi t ∧
        t.parity = rsParity s.cfg s.payIn ∧ s.answered t ⟨.ok, 0#32, rsParity s.cfg s.payIn⟩) ∧
    (NN - s.cfg.nroots < pad.toNat ∨ s.payLen ≠ NN - s.cfg.nroots - pad.toNat →
      ∃ t, exec (.rsEncode pad) s = .next t ∧ s.sameBlock t ∧ s.answered t ⟨.errPrecond, 0#32, []⟩)

/-- The division: PARITY starts as NROOTS zeros, and each payload byte d, in order, is one step on PARITY P with
FEEDBACK f = INDEX_OF[d XOR P[0]] (2a): each entry j from 1 has the product by GENPOLY[NROOTS - j] XORed in (2b) and moves to
j - 1 (2c), and the last entry becomes the product by GENPOLY[0] (2d), where the product m(g) is
ALPHA_TO[(f + GENPOLY[g]) mod 255], or 0 when f is the sentinel 255 (R94, R95). -/
def Obligations.RsStepClosedForm : Prop :=
  ∀ cfg : Config, cfg.wf →
    rsParity cfg [] = List.replicate cfg.nroots 0#8 ∧
    ∀ (data : List Byte) (d : Byte),
      let P := rsParity cfg data
      let f := (cfg.indexOf[(d ^^^ P.getD 0 0#8).toNat]'(BitVec.isLt _)).toNat
      let m := fun g : Nat =>
        if f = 255 then 0#8 else cfg.alphaTo.toList.getD ((f + (cfg.genpoly.getD g 0#8).toNat) % 255) 0#8
      (rsParity cfg (data ++ [d])).length = cfg.nroots ∧
      (∀ j, 1 ≤ j → j < cfg.nroots →
        (rsParity cfg (data ++ [d])).getD (j - 1) 0#8 = P.getD j 0#8 ^^^ m (cfg.nroots - j)) ∧
      (rsParity cfg (data ++ [d])).getD (cfg.nroots - 1) 0#8 = m 0

/-- Encoding an all-zero data block yields all-zero parity, for any valid PAD (R96 (b)). -/
def Obligations.RsZeroMessageHasZeroParity : Prop :=
  ∀ (pad : Byte) (s : State), s.cfg.wf → pad.toNat ≤ NN - s.cfg.nroots →
    s.payIn = List.replicate (NN - s.cfg.nroots - pad.toNat) 0#8 →
      ∃ t, exec (.rsEncode pad) s = .next t ∧
        s.answered t ⟨.ok, 0#32, List.replicate s.cfg.nroots 0#8⟩

/-- Linearity: when multiplication by each coefficient of GENPOLY distributes over XOR, the parity of the bytewise XOR of two
messages of one length is the bytewise XOR of their parities (R96 (c)). -/
def Obligations.RsParityIsLinear : Prop :=
  ∀ cfg : Config, cfg.wf → timesDistributes cfg →
    ∀ a b : List Byte, a.length = b.length →
      rsParity cfg (List.zipWith (· ^^^ ·) a b) = List.zipWith (· ^^^ ·) (rsParity cfg a) (rsParity cfg b)

/-- A message followed by its own parity has zero parity, and zero symbols in front of a message change nothing
(vectors RS5 and RS8 of 95_test_vectors.md §2.2, for every well-formed configuration). -/
def Obligations.RsCodeWordHasZeroParity : Prop :=
  ∀ cfg : Config, cfg.wf → ∀ data : List Byte,
    rsParity cfg (data ++ rsParity cfg data) = List.replicate cfg.nroots 0#8 ∧
    ∀ n, rsParity cfg (List.replicate n 0#8 ++ data) = rsParity cfg data

/-! ### SETPOLY, CREATE, INIT, DESTROY (41_viterbi_lifecycle.md) -/

/-- SETPOLY with no payload completes in every state, whatever the polynomials: BT[k][i] = parity1((2 i) AND Pk) for the three
polynomials and i from 0 to 127, BT_VALID = 1, STATUS = OK with VALUE 0, and nothing else changes; with a payload it answers
ERR_PRECOND and changes nothing (R110). -/
def Obligations.SetpolyBuildsBranchTable : Prop :=
  ∀ (p0 p1 p2 : Poly) (s : State),
    (s.payLen = 0 →
      ∃ t, exec (.setpoly p0 p1 p2) s = .next t ∧ s.answered t ⟨.ok, 0#32, []⟩ ∧
        (∀ i < 128,
          t.bt[0].getLsbD i = parity1 (BitVec.ofNat 9 (2 * i) &&& p0) ∧
          t.bt[1].getLsbD i = parity1 (BitVec.ofNat 9 (2 * i) &&& p1) ∧
          t.bt[2].getLsbD i = parity1 (BitVec.ofNat 9 (2 * i) &&& p2)) ∧
        t.btValid = true ∧ t.cfg = s.cfg ∧ t.parity = s.parity ∧ t.ctxs = s.ctxs) ∧
    (s.payLen ≠ 0 →
      ∃ t, exec (.setpoly p0 p1 p2) s = .next t ∧ s.sameBlock t ∧ s.answered t ⟨.errPrecond, 0#32, []⟩)

/-- The complementary branch metric is the true one exactly when both end taps are set: the transition from i + 128 with
input 0 and the one from i with input 1 both give the complement of BT[k][i], for every i, exactly when Pk[8] = Pk[0] = 1;
and BT depends on Pk[7:1] alone (R111, R119). -/
def Obligations.ComplementHoldsExactlyWithEndTaps : Prop :=
  (∀ p : Poly,
    (∀ i < 128, parity1 (BitVec.ofNat 9 (2 * (i + 128)) &&& p) = !(branchRow p).getLsbD i ∧
      parity1 (BitVec.ofNat 9 (2 * i + 1) &&& p) = !(branchRow p).getLsbD i) ↔
    p.getLsbD 8 = true ∧ p.getLsbD 0 = true) ∧
  ∀ p : Poly, ∀ i < 128, (branchRow p).getLsbD i = parity1 (BitVec.ofNat 7 i &&& p.extractLsb' 1 7)

/-- CREATE with no payload, LEN <= HIST_DEPTH and a free context completes: it allocates the least free context c, answers
VALUE = c, sets ALLOC = 1, INITED = 0, LEN = len, and changes nothing of the other contexts or the block. With a payload it
answers ERR_PRECOND, without one and without room ERR_ALLOC, and changes nothing; room is LEN <= HIST_DEPTH and a free context,
whatever the LEN of the others (R114, R115). What becomes of the chosen context's unspecified fields is not said. -/
def Obligations.CreateTakesLowestFreeContext : Prop :=
  ∀ (len : BitVec 24) (s : State),
    (∀ (c : Nat) (k : Context), s.payLen = 0 → len.toNat ≤ s.cfg.histDepth →
      c < s.cfg.nctx → s.ctxs[c]? = some k → k.alloc = false →
      (∀ j < c, ∀ l, s.ctxs[j]? = some l → l.alloc = true) →
        ∃ t, exec (.create len) s = .next t ∧ s.answered t ⟨.ok, BitVec.ofNat 32 c, []⟩ ∧
          (∃ l, t.ctxs[c]? = some l ∧ l.alloc = true ∧ l.inited = false ∧ l.len = len) ∧
          t.ctxs.length = s.ctxs.length ∧ (∀ j, j ≠ c → t.ctxs[j]? = s.ctxs[j]?) ∧
          t.cfg = s.cfg ∧ t.bt = s.bt ∧ t.btValid = s.btValid ∧ t.parity = s.parity) ∧
    (s.payLen ≠ 0 →
      ∃ t, exec (.create len) s = .next t ∧ s.sameBlock t ∧ s.answered t ⟨.errPrecond, 0#32, []⟩) ∧
    (s.payLen = 0 →
      s.cfg.histDepth < len.toNat ∨ (∀ c < s.cfg.nctx, ∀ k, s.ctxs[c]? = some k → k.alloc = true) →
        ∃ t, exec (.create len) s = .next t ∧ s.sameBlock t ∧ s.answered t ⟨.errAlloc, 0#32, []⟩)

/-- ERR_ALLOC is answered exactly by a CREATE with an empty payload whose LEN is above HIST_DEPTH or which finds every context
allocated (R177). -/
def Obligations.CreateFailsExactlyWithoutRoom : Prop :=
  ∀ (i : Instr) (s : State),
    (∃ t v out, exec i s = .next t ∧ s.answered t ⟨.errAlloc, v, out⟩) ↔
      ∃ len, i = .create len ∧ s.payLen = 0 ∧
        (s.cfg.histDepth < len.toNat ∨ ∀ c < s.cfg.nctx, ∀ k, s.ctxs[c]? = some k → k.alloc = true)

/-- INIT of a valid handle with no payload completes: SEL = 0, DP = 0, START has metric -32768 and every other state -27768,
INITED = 1, VALUE = 0; bank 1, the history (every record reads as before), LEN, ALLOC, the other contexts and the block are
unchanged. An invalid handle answers ERR_HANDLE, a payload ERR_PRECOND, and nothing changes (R116, R117). -/
def Obligations.InitEstablishesStartMetrics : Prop :=
  ∀ (h : Handle) (st : TrellisState) (s : State),
    (∀ k, s.validCtx? h = some k → s.payLen = 0 →
      ∃ t l, exec (.init h st) s = .next t ∧ s.answered t ⟨.ok, 0#32, []⟩ ∧ t.ctxs[h.toNat]? = some l ∧
        l.sel = 0 ∧ l.dp = 0#25 ∧ l.inited = true ∧ l.alloc = true ∧ l.len = k.len ∧
        (∀ p : Fin 256, bankAt l.met[0] p = if p.val = st.toNat then -32768 else -27768) ∧
        l.met[1] = k.met[1] ∧ (∀ n, l.hist.read n = k.hist.read n) ∧
        t.ctxs.length = s.ctxs.length ∧ (∀ j, j ≠ h.toNat → t.ctxs[j]? = s.ctxs[j]?) ∧
        t.cfg = s.cfg ∧ t.bt = s.bt ∧ t.btValid = s.btValid ∧ t.parity = s.parity) ∧
    (s.validCtx? h = none →
      ∃ t, exec (.init h st) s = .next t ∧ s.sameBlock t ∧ s.answered t ⟨.errHandle, 0#32, []⟩) ∧
    (s.validCtx? h ≠ none → s.payLen ≠ 0 →
      ∃ t, exec (.init h st) s = .next t ∧ s.sameBlock t ∧ s.answered t ⟨.errPrecond, 0#32, []⟩)

/-- A handle h is valid when h < NCTX and ALLOC[h] = 1. With an invalid one INIT, UPDATE and CHAINBACK fail with ERR_HANDLE and
change nothing, before any other check and whatever the payload, and DESTROY with no payload succeeds and changes nothing; no
command answers ERR_HANDLE otherwise (R112, R176). -/
def Obligations.InvalidHandleIsRejected : Prop :=
  (∀ (h : Handle) (s : State), (s.cfg.nctx ≤ h.toNat ∨ ∀ k, s.ctxs[h.toNat]? = some k → k.alloc = false) →
    (∀ i : Instr, (∃ st, i = .init h st) ∨ (∃ n, i = .update h n) ∨ (∃ n e, i = .chainback h n e) →
      ∃ t, exec i s = .next t ∧ s.sameBlock t ∧ s.answered t ⟨.errHandle, 0#32, []⟩) ∧
    (s.payLen = 0 → ∃ t, exec (.destroy h) s = .next t ∧ s.sameBlock t ∧ s.answered t ⟨.ok, 0#32, []⟩)) ∧
  ∀ (i : Instr) (s t : State) (r : Response), exec i s = .next t → t.responses = s.responses ++ [r] →
    r.status = .errHandle →
      ∃ h : Handle, ((∃ st, i = .init h st) ∨ (∃ n, i = .update h n) ∨ (∃ n e, i = .chainback h n e)) ∧
        ¬ ∃ k, h.toNat < s.cfg.nctx ∧ s.ctxs[h.toNat]? = some k ∧ k.alloc = true

/-- DESTROY with no payload always completes with OK and VALUE 0: a valid context becomes FREE (ALLOC = INITED = 0), an invalid
handle changes nothing; the other contexts and the block are unchanged. With a payload it answers ERR_PRECOND and changes
nothing (R118). What becomes of the released context's other fields is not said. -/
def Obligations.DestroyFreesContext : Prop :=
  ∀ (h : Handle) (s : State),
    (s.payLen = 0 →
      ∃ t, exec (.destroy h) s = .next t ∧ s.answered t ⟨.ok, 0#32, []⟩ ∧
        (s.validCtx? h = none → t.ctxs = s.ctxs) ∧
        (∀ k, s.validCtx? h = some k → ∃ l, t.ctxs[h.toNat]? = some l ∧ l.alloc = false ∧ l.inited = false) ∧
        t.ctxs.length = s.ctxs.length ∧ (∀ j, j ≠ h.toNat → t.ctxs[j]? = s.ctxs[j]?) ∧
        t.cfg = s.cfg ∧ t.bt = s.bt ∧ t.btValid = s.btValid ∧ t.parity = s.parity) ∧
    (s.payLen ≠ 0 →
      ∃ t, exec (.destroy h) s = .next t ∧ s.sameBlock t ∧ s.answered t ⟨.errPrecond, 0#32, []⟩)

/-! ### UPDATE (42_viterbi_update.md) -/

/-- The branch metric: symbol k contributes sym where BT[k][i] = 0 and 255 - sym where it is 1; the sum is at most 765; the four
transitions of butterfly i carry BM(i), 765 - BM(i), 765 - BM(i), BM(i); and the two hypotheses of every state sum to exactly
765, for every polynomial setting (R133, R148). -/
def Obligations.BranchMetricIdentity : Prop :=
  ∀ (bt : Vector BranchRow 3) (sym : Vector Byte 3) (i : Fin 128),
    branchMetric bt sym i =
      (if bt[0].getLsbD i.val then 255 - sym[0].toNat else sym[0].toNat) +
      (if bt[1].getLsbD i.val then 255 - sym[1].toNat else sym[1].toNat) +
      (if bt[2].getLsbD i.val then 255 - sym[2].toNat else sym[2].toNat) ∧
    branchMetric bt sym i ≤ 765 ∧
    transitionCost bt sym (lowPred i) false = branchMetric bt sym i ∧
    transitionCost bt sym (highPred i) false = 765 - branchMetric bt sym i ∧
    transitionCost bt sym (lowPred i) true = 765 - branchMetric bt sym i ∧
    transitionCost bt sym (highPred i) true = branchMetric bt sym i ∧
    ∀ p : Fin 256, transitionCost bt sym p false + transitionCost bt sym p true = 765

/-- Add, compare, select of one step on any old bank: each successor's metric is the smaller of its two candidates, each an
old metric plus the branch metric of R133 clamped at 32767; its decision bit is 1 exactly when the upper predecessor's
candidate is strictly smaller (R134, R135, R137). -/
def Obligations.StepSelectsSmallerCandidate : Prop :=
  ∀ (bt : Vector BranchRow 3) (sym : Vector Byte 3) (old : Bank) (i : Fin 128),
    let bm : Int := branchMetric bt sym i
    let lo : Int := bankAt old ⟨i.val, by have := i.isLt; omega⟩
    let hi : Int := bankAt old ⟨i.val + 128, by have := i.isLt; omega⟩
    let m0 := min (lo + bm) 32767
    let m1 := min (hi + (765 - bm)) 32767
    let m2 := min (lo + (765 - bm)) 32767
    let m3 := min (hi + bm) 32767
    bankAt (newBank bt sym old) ⟨2 * i.val, by have := i.isLt; omega⟩ = (if m1 < m0 then m1 else m0) ∧
    bankAt (newBank bt sym old) ⟨2 * i.val + 1, by have := i.isLt; omega⟩ = (if m3 < m2 then m3 else m2) ∧
    (decisionRecord bt sym old).getLsbD (2 * i.val) = decide (m1 < m0) ∧
    (decisionRecord bt sym old).getLsbD (2 * i.val + 1) = decide (m3 < m2)

/-- The butterflies of a step taken one after another, in any order that visits each of the 128 at least once and over any
earlier contents, write the new bank and the record of the step: no entry keeps an older value and the order is not
observable (R139, R146). -/
def Obligations.ButterflyOrderIsNotObservable : Prop :=
  ∀ (bt : Vector BranchRow 3) (sym : Vector Byte 3) (old : Bank) (order : List (Fin 128)) (b0 : Bank) (r0 : Record),
    (∀ i, i ∈ order) →
      butterflyLoop bt sym old order (b0, r0) = (newBank bt sym old, decisionRecord bt sym old)

/-- Renormalisation in one step, with `new` the bank after the butterflies: below 20017 in state 0 the bank stands and ACC is
unchanged; at or above it the adjust is the least metric plus 32768, every metric is lowered by exactly the adjust without
leaving the 16-bit range, the least one becomes -32768, and ACC grows by the adjust modulo 2^32 (R142). -/
def Obligations.RenormalisationBringsMinimumToFloor : Prop :=
  ∀ (bt : Vector BranchRow 3) (k : Context) (acc : Word) (sym : Vector Byte 3),
    let new := newBank bt sym k.oldBank
    let r := vitStep bt (k, acc) sym
    (bankAt new 0 < 20017 → r.1.oldBank = new ∧ r.2 = acc) ∧
    (20017 ≤ bankAt new 0 →
      ∃ (q : Fin 256) (adjust : Nat), (∀ p, bankAt new q ≤ bankAt new p) ∧ (adjust : Int) = bankAt new q + 32768 ∧
        (∀ p, bankAt r.1.oldBank p = bankAt new p - adjust) ∧ bankAt r.1.oldBank q = -32768 ∧
        r.2.toNat = (acc.toNat + adjust) % 2 ^ 32)

/-- In a context that meets the invariant a renormalisation subtracts at least 42430, and no metric is above -22413 after it:
none fires in the 55 steps that follow (R142, R151 (f), from the spread of R212 (a)). -/
def Obligations.RenormalisationIsRare : Prop :=
  ∀ (cfg : Config) (bt : Vector BranchRow 3) (k : Context) (acc : Word) (sym : Vector Byte 3), k.Inv cfg →
    k.inited = true → 20017 ≤ bankAt (newBank bt sym k.oldBank) 0 →
      42430 ≤ renormAdjust (newBank bt sym k.oldBank) ∧
      (∀ p, bankAt (vitStep bt (k, acc) sym).1.oldBank p ≤ -22413) ∧
      ∀ syms : List (Vector Byte 3), syms.length ≤ 55 →
        (vitRun bt (vitStep bt (k, acc) sym).1 syms).2 = 0#32

/-- One trellis advance: the record goes to HIST[DP] and every other record reads as before, the new bank (lowered by the
adjust) becomes the old bank, the bank that was old is not written, SEL swaps, DP grows by one, ACC grows by the adjust modulo
2^32; ALLOC, INITED and LEN stand (R140, R143). -/
def Obligations.TrellisStepEffect : Prop :=
  ∀ (bt : Vector BranchRow 3) (k : Context) (acc : Word) (sym : Vector Byte 3), k.hist.wf → k.dp.toNat < 2 ^ 24 →
    let r := vitStep bt (k, acc) sym
    let new := newBank bt sym k.oldBank
    r.1.hist.read k.dp.toNat = decisionRecord bt sym k.oldBank ∧
    (∀ t, t ≠ k.dp.toNat → r.1.hist.read t = k.hist.read t) ∧
    r.1.oldBank = lowerBy (renormAdjust new) new ∧ r.1.met[k.sel] = k.met[k.sel] ∧
    r.1.sel.val = 1 - k.sel.val ∧ r.1.dp.toNat = k.dp.toNat + 1 ∧
    r.2.toNat = (acc.toNat + renormAdjust new) % 2 ^ 32 ∧
    r.1.alloc = k.alloc ∧ r.1.inited = k.inited ∧ r.1.len = k.len

/-- UPDATE on a valid READY context with BT_VALID = 1, DP + NSTEPS <= LEN and 3 x NSTEPS payload bytes completes: it runs the
steps of the payload's triples in order and answers OK with ACC. DP grows by NSTEPS; records outside DP .. DP + NSTEPS - 1
read as before; BT, the flags, LEN, the other contexts, PARITY and the configuration are unchanged. Where one of those four
conditions fails no step runs: ERR_PRECOND, INITED of the context is cleared and nothing else changes. An invalid handle
answers ERR_HANDLE and changes nothing (R141, R145). -/
def Obligations.UpdateCompletes : Prop :=
  ∀ (h : Handle) (n : BitVec 24) (s : State),
    (∀ k, s.validCtx? h = some k → k.inited = true → s.btValid = true →
      k.dp.toNat + n.toNat ≤ k.len.toNat → s.payLen = 3 * n.toNat → k.len.toNat ≤ s.cfg.histDepth →
        ∃ t l, exec (.update h n) s = .next t ∧
          l = ((symbolTriples s.payIn).foldl (vitStep s.bt) (k, 0#32)).1 ∧
          s.answered t ⟨.ok, ((symbolTriples s.payIn).foldl (vitStep s.bt) (k, 0#32)).2, []⟩ ∧
          (symbolTriples s.payIn).length = n.toNat ∧
          (∀ j < n.toNat, (symbolTriples s.payIn)[j]? =
            some #v[s.payIn.getD (3 * j) 0#8, s.payIn.getD (3 * j + 1) 0#8, s.payIn.getD (3 * j + 2) 0#8]) ∧
          t.ctxs = s.ctxs.set h.toNat l ∧
          l.dp.toNat = k.dp.toNat + n.toNat ∧ l.alloc = true ∧ l.inited = true ∧ l.len = k.len ∧
          (∀ u, (u < k.dp.toNat ∨ k.dp.toNat + n.toNat ≤ u) → l.hist.read u = k.hist.read u) ∧
          t.cfg = s.cfg ∧ t.bt = s.bt ∧ t.btValid = s.btValid ∧ t.parity = s.parity) ∧
    (∀ k, s.validCtx? h = some k →
      (k.inited = false ∨ s.btValid = false ∨ k.len.toNat < k.dp.toNat + n.toNat ∨ s.payLen ≠ 3 * n.toNat) →
        ∃ t, exec (.update h n) s = .next t ∧ s.answered t ⟨.errPrecond, 0#32, []⟩ ∧
          t.ctxs = s.ctxs.set h.toNat { k with inited := false } ∧
          t.cfg = s.cfg ∧ t.bt = s.bt ∧ t.btValid = s.btValid ∧ t.parity = s.parity) ∧
    (s.validCtx? h = none →
      ∃ t, exec (.update h n) s = .next t ∧ s.sameBlock t ∧ s.answered t ⟨.errHandle, 0#32, []⟩)

/-- Feeding a symbol stream in two UPDATEs leaves the state one UPDATE of the whole leaves, and the two VALUEs sum to the one
VALUE modulo 2^32 (R141, corner cases). -/
def Obligations.UpdateMaySplitAStream : Prop :=
  ∀ (h : Handle) (n1 n2 : BitVec 24) (s s1 s2 : State) (pay1 pay2 : List Byte) (r1 r2 : Response), s.Inv →
    n1.toNat + n2.toNat < 2 ^ 24 →
    exec (.update h n1) (s.withPayload pay1) = .next s1 → s1.responses = s.responses ++ [r1] → r1.status = .ok →
    exec (.update h n2) (s1.withPayload pay2) = .next s2 → s2.responses = s1.responses ++ [r2] → r2.status = .ok →
      ∃ t, exec (.update h (n1 + n2)) (s.withPayload (pay1 ++ pay2)) = .next t ∧
        t.responses = s.responses ++ [⟨.ok, r1.value + r2.value, []⟩] ∧ s2.sameBlock t

/-- The metrics are least path costs: after an UPDATE that answers OK with VALUE v, there is a total with v = total modulo 2^32
such that, for every state e, the new metric of e plus the total is the least of (old metric of p) + (cost of a path of
NSTEPS transitions from p to e against the payload's symbols), over all p and all paths (R144). -/
def Obligations.UpdateMetricsAreLeastPathCosts : Prop :=
  ∀ (h : Handle) (n : BitVec 24) (s t : State) (v : Word) (k : Context), s.Inv → s.validCtx? h = some k →
    exec (.update h n) s = .next t → t.responses = s.responses ++ [⟨.ok, v, []⟩] →
      ∃ (l : Context) (total : Nat), t.ctxs[h.toNat]? = some l ∧ v = BitVec.ofNat 32 total ∧
        ∀ e : Fin 256,
          (∀ (p : Fin 256) (bits : List Bool), bits.length = n.toNat → pathEnd p bits = e →
            bankAt l.oldBank e + total ≤ bankAt k.oldBank p + pathCost s.bt p (symbolTriples s.payIn) bits) ∧
          ∃ (p : Fin 256) (bits : List Bool), bits.length = n.toNat ∧ pathEnd p bits = e ∧
            bankAt l.oldBank e + total = bankAt k.oldBank p + pathCost s.bt p (symbolTriples s.payIn) bits

/-! ### CHAINBACK (43_chainback.md) -/

/-- CHAINBACK on a valid READY context with no payload and NBITS + 8 <= DP completes: STATUS = OK, VALUE is the current metric of
ENDSTATE plus 32768, the payload is the walk's ceil(NBITS / 8) bytes, and no state changes. With a payload, INITED = 0 or
NBITS + 8 > DP it answers ERR_PRECOND, with an invalid handle ERR_HANDLE, and changes nothing (R161). -/
def Obligations.ChainbackCompletes : Prop :=
  ∀ (h : Handle) (n : BitVec 16) (e : TrellisState) (s : State),
    (∀ k, s.validCtx? h = some k → s.payLen = 0 → k.inited = true → n.toNat + 8 ≤ k.dp.toNat →
      k.dp.toNat ≤ s.cfg.histDepth →
        ∃ t v out, exec (.chainback h n e) s = .next t ∧ s.sameBlock t ∧ s.answered t ⟨.ok, v, out⟩ ∧
          (v.toNat : Int) = bankAt k.oldBank ⟨e.toNat, e.isLt⟩ + 32768 ∧
          out = chainOutput k.hist n.toNat e ∧ out.length = (n.toNat + 7) / 8) ∧
    (∀ k, s.validCtx? h = some k → (s.payLen ≠ 0 ∨ k.inited = false ∨ k.dp.toNat < n.toNat + 8) →
      ∃ t, exec (.chainback h n e) s = .next t ∧ s.sameBlock t ∧ s.answered t ⟨.errPrecond, 0#32, []⟩) ∧
    (s.validCtx? h = none →
      ∃ t, exec (.chainback h n e) s = .next t ∧ s.sameBlock t ∧ s.answered t ⟨.errHandle, 0#32, []⟩)

/-- The walk and its output: S starts as ENDSTATE; the step for bit n reads k = HIST[n + 8][S] and S becomes
(S >> 1) OR (k << 7); decoded bit n, at bit 7 - (n mod 8) of byte n >> 3, is that k; there are ceil(NBITS / 8) bytes, and the
unused low bits of the last one are the next bits of the traced path, held in S after the step for the byte's first bit
(R163, R165). -/
def Obligations.ChainbackPacksDecodedBits : Prop :=
  ∀ (hist : Memory) (nbits : Nat) (e : TrellisState),
    walkState hist nbits e nbits = e ∧
    (∀ n < nbits,
      let S := walkState hist nbits e (n + 1)
      (walkState hist nbits e n).toNat = S.toNat / 2 + 128 * ((hist.read (n + 8)).getLsbD S.toNat).toNat ∧
      decodedBit (chainOutput hist nbits e) n = (hist.read (n + 8)).getLsbD S.toNat) ∧
    (chainOutput hist nbits e).length = (nbits + 7) / 8 ∧
    ∀ j < (nbits + 7) / 8, (chainOutput hist nbits e).getD j 0#8 = walkState hist nbits e (8 * j)

/-- After the step for bit n, bit 7 - j of S is decoded bit n + j, for the bits that are decoded (R164). -/
def Obligations.WalkStateHoldsTheNextBits : Prop :=
  ∀ (hist : Memory) (nbits : Nat) (e : TrellisState) (n j : Nat), j < 8 → n + j < nbits →
    (walkState hist nbits e n).getLsbD (7 - j) = decodedBit (chainOutput hist nbits e) (n + j)

/-- The walk reads records 8 to NBITS + 7 only: contexts that agree on those give the same decoded bytes, whatever the
other records hold (R162, R164). -/
def Obligations.ChainbackReadsOnlyItsRecords : Prop :=
  ∀ (hist other : Memory) (nbits : Nat) (e : TrellisState),
    (∀ r, 8 ≤ r → r < nbits + 8 → hist.read r = other.read r) →
      chainOutput hist nbits e = chainOutput other nbits e

/-- Least-cost decoding, end to end: INIT, one UPDATE of NBITS + 8 steps and CHAINBACK on an allocated context long
enough all answer OK; the decoded bits are the first NBITS input bits of a path into ENDSTATE whose total cost (start metric
plus 32768 plus path cost) equals the CHAINBACK VALUE plus what UPDATE's VALUE counts, and no path into ENDSTATE costs less
(R117, R144, R160, R166). The cost is the engine's; it is that of the code the polynomials describe, so that decoding is
maximum-likelihood, when every polynomial has both end taps (R119, ComplementHoldsExactlyWithEndTaps). -/
def Obligations.DecodedBitsAreThoseOfALeastCostPath : Prop :=
  ∀ (h : Handle) (st e : TrellisState) (nbits : BitVec 16) (pay : List Byte) (s : State) (k : Context), s.Inv →
    s.validCtx? h = some k → s.payIn = [] → s.btValid = true → nbits.toNat + 8 ≤ k.len.toNat →
    pay.length = 3 * (nbits.toNat + 8) →
      ∃ s1 s2 s3 v2 v3 out,
        exec (.init h st) s = .next s1 ∧
        exec (.update h (BitVec.ofNat 24 (nbits.toNat + 8))) (s1.withPayload pay) = .next s2 ∧
        exec (.chainback h nbits e) s2 = .next s3 ∧
        s3.responses = s.responses ++ [⟨.ok, 0#32, []⟩, ⟨.ok, v2, []⟩, ⟨.ok, v3, out⟩] ∧
        ∃ (total : Nat) (p : Fin 256) (bits : List Bool), v2 = BitVec.ofNat 32 total ∧
          bits.length = nbits.toNat + 8 ∧ (pathEnd p bits).val = e.toNat ∧
          (∀ j < nbits.toNat, some (decodedBit out j) = bits[j]?) ∧
          bankAt (startBank st) p + 32768 + pathCost s.bt p (symbolTriples pay) bits = v3.toNat + total ∧
          ∀ (q : Fin 256) (other : List Bool), other.length = nbits.toNat + 8 → (pathEnd q other).val = e.toNat →
            (v3.toNat : Int) + total ≤ bankAt (startBank st) q + 32768 + pathCost s.bt q (symbolTriples pay) other
end

