-- ==== Sys2Proof/Laws/State.lean ====
section
/-! SUPPORT. One lemma per field per update of the state and of a context, so that no later proof unfolds a record
update. -/

namespace Sys2Proof.Machine

open Sys2Proof

variable (s : State) (k : Context) (r : Response) (c : Nat) (cmd : Command) (rest : List Input)

@[simp] theorem send_cfg : (s.send r).cfg = s.cfg := rfl
@[simp] theorem send_bt : (s.send r).bt = s.bt := rfl
@[simp] theorem send_btValid : (s.send r).btValid = s.btValid := rfl
@[simp] theorem send_parity : (s.send r).parity = s.parity := rfl
@[simp] theorem send_ctxs : (s.send r).ctxs = s.ctxs := rfl
@[simp] theorem send_payIn : (s.send r).payIn = [] := rfl
@[simp] theorem send_pending : (s.send r).pending = s.pending := rfl
@[simp] theorem send_responses : (s.send r).responses = s.responses ++ [r] := rfl

@[simp] theorem setCtx_cfg : (s.setCtx c k).cfg = s.cfg := rfl
@[simp] theorem setCtx_bt : (s.setCtx c k).bt = s.bt := rfl
@[simp] theorem setCtx_btValid : (s.setCtx c k).btValid = s.btValid := rfl
@[simp] theorem setCtx_parity : (s.setCtx c k).parity = s.parity := rfl
@[simp] theorem setCtx_ctxs : (s.setCtx c k).ctxs = s.ctxs.set c k := rfl
@[simp] theorem setCtx_payIn : (s.setCtx c k).payIn = s.payIn := rfl
@[simp] theorem setCtx_pending : (s.setCtx c k).pending = s.pending := rfl
@[simp] theorem setCtx_responses : (s.setCtx c k).responses = s.responses := rfl

@[simp] theorem setBt_cfg (bt : Vector BranchRow 3) : (s.setBt bt).cfg = s.cfg := rfl
@[simp] theorem setBt_bt (bt : Vector BranchRow 3) : (s.setBt bt).bt = bt := rfl
@[simp] theorem setBt_btValid (bt : Vector BranchRow 3) : (s.setBt bt).btValid = true := rfl
@[simp] theorem setBt_parity (bt : Vector BranchRow 3) : (s.setBt bt).parity = s.parity := rfl
@[simp] theorem setBt_ctxs (bt : Vector BranchRow 3) : (s.setBt bt).ctxs = s.ctxs := rfl
@[simp] theorem setBt_pending (bt : Vector BranchRow 3) : (s.setBt bt).pending = s.pending := rfl
@[simp] theorem setBt_responses (bt : Vector BranchRow 3) : (s.setBt bt).responses = s.responses := rfl

@[simp] theorem accept_cfg : (s.accept cmd rest).cfg = s.cfg := rfl
@[simp] theorem accept_bt : (s.accept cmd rest).bt = s.bt := rfl
@[simp] theorem accept_btValid : (s.accept cmd rest).btValid = s.btValid := rfl
@[simp] theorem accept_parity : (s.accept cmd rest).parity = s.parity := rfl
@[simp] theorem accept_ctxs : (s.accept cmd rest).ctxs = s.ctxs := rfl
@[simp] theorem accept_payIn : (s.accept cmd rest).payIn = cmd.payload := rfl
@[simp] theorem accept_pending : (s.accept cmd rest).pending = rest := rfl
@[simp] theorem accept_responses : (s.accept cmd rest).responses = s.responses := rfl

@[simp] theorem withPayload_cfg (pay : List Byte) : (s.withPayload pay).cfg = s.cfg := rfl
@[simp] theorem withPayload_bt (pay : List Byte) : (s.withPayload pay).bt = s.bt := rfl
@[simp] theorem withPayload_btValid (pay : List Byte) : (s.withPayload pay).btValid = s.btValid := rfl
@[simp] theorem withPayload_parity (pay : List Byte) : (s.withPayload pay).parity = s.parity := rfl
@[simp] theorem withPayload_ctxs (pay : List Byte) : (s.withPayload pay).ctxs = s.ctxs := rfl
@[simp] theorem withPayload_payIn (pay : List Byte) : (s.withPayload pay).payIn = pay := rfl
@[simp] theorem withPayload_pending (pay : List Byte) : (s.withPayload pay).pending = s.pending := rfl
@[simp] theorem withPayload_responses (pay : List Byte) : (s.withPayload pay).responses = s.responses := rfl

@[simp] theorem applyReset_cfg : (s.applyReset rest).cfg = s.cfg := rfl
@[simp] theorem applyReset_btValid : (s.applyReset rest).btValid = false := rfl
@[simp] theorem applyReset_ctxs :
    (s.applyReset rest).ctxs = List.replicate s.cfg.nctx Context.reset := rfl
@[simp] theorem applyReset_pending : (s.applyReset rest).pending = rest := rfl
@[simp] theorem applyReset_responses : (s.applyReset rest).responses = s.responses := rfl
@[simp] theorem applyReset_parity :
    (s.applyReset rest).parity = List.replicate s.cfg.nroots 0#8 := rfl

@[simp] theorem allocate_alloc (n : BitVec 24) : (k.allocate n).alloc = true := rfl
@[simp] theorem allocate_inited (n : BitVec 24) : (k.allocate n).inited = false := rfl
@[simp] theorem allocate_len (n : BitVec 24) : (k.allocate n).len = n := rfl
@[simp] theorem allocate_hist (n : BitVec 24) : (k.allocate n).hist = k.hist := rfl

@[simp] theorem release_alloc : k.release.alloc = false := rfl
@[simp] theorem release_inited : k.release.inited = false := rfl
@[simp] theorem release_hist : k.release.hist = k.hist := rfl

@[simp] theorem invalidate_alloc : k.invalidate.alloc = k.alloc := rfl
@[simp] theorem invalidate_inited : k.invalidate.inited = false := rfl
@[simp] theorem invalidate_len : k.invalidate.len = k.len := rfl
@[simp] theorem invalidate_hist : k.invalidate.hist = k.hist := rfl

@[simp] theorem start_alloc (st : TrellisState) : (k.start st).alloc = k.alloc := rfl
@[simp] theorem start_inited (st : TrellisState) : (k.start st).inited = true := rfl
@[simp] theorem start_len (st : TrellisState) : (k.start st).len = k.len := rfl
@[simp] theorem start_dp (st : TrellisState) : (k.start st).dp = 0#25 := rfl
@[simp] theorem start_sel (st : TrellisState) : (k.start st).sel = 0 := rfl
@[simp] theorem start_hist (st : TrellisState) : (k.start st).hist = k.hist := rfl

@[simp] theorem start_oldBank (st : TrellisState) : (k.start st).oldBank = startBank st := by
  simp [Context.oldBank, Context.start]

end Sys2Proof.Machine
end

