-- ==== Sys2Proof/Laws/Memory.lean ====
section
/-! SUPPORT. The history memory: a read after a write, the canonical form, and the bound on indexes. -/

namespace Sys2Proof.Machine

open Sys2Proof

@[simp] theorem read_nil (t : Nat) : Memory.read [] t = 0#256 := rfl

theorem read_cons (u : Nat) (q : Record) (m : Memory) (t : Nat) :
    Memory.read ((u, q) :: m) t = if u = t then q else Memory.read m t := rfl

/-- An index below every listed one reads as the zero record. -/
theorem read_eq_zero_of_lt {m : Memory} {t : Nat} (h : ∀ e ∈ m, t < e.1) : m.read t = 0#256 := by
  induction m with
  | nil => rfl
  | cons e m ih =>
    have he := h e (by simp)
    rw [read_cons, if_neg (by omega)]
    exact ih fun e' he' => h e' (by simp [he'])

/-- Every index a write leaves listed was listed before or is the index written. -/
theorem mem_write {m : Memory} {t : Nat} {r : Record} {e : Nat × Record} (h : e ∈ m.write t r) :
    e ∈ m ∨ (e = (t, r) ∧ r ≠ 0#256) := by
  induction m with
  | nil =>
    simp only [Memory.write] at h
    split at h <;> simp_all
  | cons f m ih =>
    simp only [Memory.write] at h
    split at h
    · split at h <;> simp_all
      tauto
    · split at h
      · split at h <;> simp_all
        tauto
      · rcases List.mem_cons.mp h with h | h
        · exact .inl (by simp [h])
        · rcases ih h with h | h
          · exact .inl (by simp [h])
          · exact .inr h

/-- Every memory operation keeps the canonical form. -/
theorem write_wf {m : Memory} (h : m.wf) (t : Nat) (r : Record) : (m.write t r).wf := by
  induction m with
  | nil =>
    simp only [Memory.write]
    split <;> simp_all [Memory.wf]
  | cons e m ih =>
    obtain ⟨hs, hz⟩ := h
    rw [List.pairwise_cons] at hs
    have hm : Memory.wf m := ⟨hs.2, fun e' he' => hz e' (by simp [he'])⟩
    have hez := hz e (by simp)
    simp only [Memory.write]
    split
    · rename_i hlt
      split
      · exact ⟨List.pairwise_cons.mpr hs, hz⟩
      · rename_i hr
        refine ⟨List.pairwise_cons.mpr ⟨?_, List.pairwise_cons.mpr hs⟩, ?_⟩
        · intro e' he'
          rcases List.mem_cons.mp he' with rfl | he'
          · exact hlt
          · exact Nat.lt_trans hlt (hs.1 e' he')
        · intro e' he'
          rcases List.mem_cons.mp he' with rfl | he'
          · exact hr
          · exact hz e' he'
    · rename_i hge
      split
      · rename_i heq
        split
        · exact hm
        · rename_i hr
          refine ⟨List.pairwise_cons.mpr ⟨?_, hs.2⟩, ?_⟩
          · intro e' he'
            simpa [heq] using hs.1 e' he'
          · intro e' he'
            rcases List.mem_cons.mp he' with rfl | he'
            · exact hr
            · exact hz e' (by simp [he'])
      · rename_i hne
        have ih := ih hm
        refine ⟨List.pairwise_cons.mpr ⟨?_, ih.1⟩, ?_⟩
        · intro e' he'
          rcases mem_write he' with he' | ⟨rfl, -⟩
          · exact hs.1 e' he'
          · show e.1 < t
            omega
        · intro e' he'
          rcases List.mem_cons.mp he' with rfl | he'
          · exact hez
          · exact ih.2 e' he'

/-- A read after a write to the same index gives the record written. -/
theorem read_write_same {m : Memory} (h : m.wf) (t : Nat) (r : Record) : (m.write t r).read t = r := by
  induction m with
  | nil =>
    simp only [Memory.write]
    split <;> simp_all [Memory.read]
  | cons e m ih =>
    obtain ⟨hs, hz⟩ := h
    rw [List.pairwise_cons] at hs
    have hm : Memory.wf m := ⟨hs.2, fun e' he' => hz e' (by simp [he'])⟩
    simp only [Memory.write]
    split
    · rename_i hlt
      split
      · rename_i hr
        rw [hr]
        apply read_eq_zero_of_lt
        intro e' he'
        rcases List.mem_cons.mp he' with rfl | he'
        · exact hlt
        · exact Nat.lt_trans hlt (hs.1 e' he')
      · rw [read_cons, if_pos rfl]
    · split
      · rename_i heq
        split
        · rename_i hr
          rw [hr]
          apply read_eq_zero_of_lt
          intro e' he'
          simpa [heq] using hs.1 e' he'
        · rw [read_cons, if_pos rfl]
      · rename_i hne
        rw [read_cons, if_neg (Ne.symm hne)]
        exact ih hm

/-- A write leaves every other index alone. -/
theorem read_write_ne (m : Memory) {t u : Nat} (r : Record) (h : u ≠ t) : (m.write t r).read u = m.read u := by
  induction m with
  | nil =>
    simp only [Memory.write]
    split
    · rfl
    · rw [read_cons, if_neg (Ne.symm h)]
  | cons e m ih =>
    simp only [Memory.write]
    split
    · split
      · rfl
      · rw [read_cons, if_neg (Ne.symm h)]
    · split
      · rename_i heq
        split
        · rw [read_cons, if_neg (by omega)]
        · rw [read_cons, read_cons, if_neg (Ne.symm h), if_neg (by omega)]
      · rw [read_cons, read_cons, ih]

/-- A write below a bound keeps every listed index below it. -/
theorem write_lt {m : Memory} {n t : Nat} {r : Record} (h : ∀ e ∈ m, e.1 < n) (ht : t < n) :
    ∀ e ∈ m.write t r, e.1 < n := by
  intro e he
  rcases mem_write he with he | ⟨rfl, -⟩
  · exact h e he
  · exact ht

end Sys2Proof.Machine
end

