-- ==== Sys2Proof/Laws/Ops.lean ====
section
/-! SUPPORT. The shared operations over contexts and the channel, each with one lemma that says everything it can do, and the
inversion of `exec`: what a command that answers a next state did. -/

namespace Sys2Proof.Machine

open Sys2Proof

@[simp] theorem respond_eq (v : Word) (p : List Byte) (s : State) : respond v p s = .next (s.send ⟨.ok, v, p⟩) := rfl

@[simp] theorem raise_eq (st : Status) (s : State) : raise st s = .next (s.send ⟨st, 0#32, []⟩) := rfl

/-- R112: a handle is valid when it is below NCTX and its context is allocated. -/
theorem validCtx?_eq_some {s : State} {h : Handle} {k : Context} :
    s.validCtx? h = some k ↔ h.toNat < s.cfg.nctx ∧ s.ctxs[h.toNat]? = some k ∧ k.alloc = true := by
  unfold State.validCtx?
  split
  · rename_i hlt
    rcases hk : s.ctxs[h.toNat]? with _ | l
    · simp
    · by_cases ha : l.alloc = true
      · simp only [ha, if_true, Option.some.injEq]
        exact ⟨fun e => ⟨hlt, e, e ▸ ha⟩, fun e => e.2.1⟩
      · simp only [ha, Option.some.injEq]
        exact ⟨fun e => absurd e (by simp), fun e => absurd (e.2.1 ▸ e.2.2) ha⟩
  · simp_all

theorem validCtx?_eq_none {s : State} {h : Handle} :
    s.validCtx? h = none ↔
      s.cfg.nctx ≤ h.toNat ∨ ∀ k, s.ctxs[h.toNat]? = some k → k.alloc = false := by
  constructor
  · intro hn
    by_cases hlt : s.cfg.nctx ≤ h.toNat
    · exact .inl hlt
    · refine .inr fun k hk => ?_
      by_contra ha
      have : s.validCtx? h = some k := validCtx?_eq_some.mpr ⟨by omega, hk, by simpa using ha⟩
      simp [hn] at this
  · intro hh
    rcases hv : s.validCtx? h with _ | k
    · rfl
    · obtain ⟨h1, h2, h3⟩ := validCtx?_eq_some.mp hv
      rcases hh with hh | hh
      · omega
      · simp [hh k h2] at h3

/-- Validity looks at the configuration and the contexts only. -/
theorem validCtx?_congr {s t : State} (hc : t.cfg = s.cfg) (hx : t.ctxs = s.ctxs) (h : Handle) :
    t.validCtx? h = s.validCtx? h := by
  unfold State.validCtx?
  rw [hc, hx]

/-- R115: the context CREATE chooses is free and every lower one is allocated. -/
theorem freeCtx?_eq_some {s : State} {c : Nat} :
    s.freeCtx? = some c ↔
      c < s.cfg.nctx ∧ (∃ k, s.ctxs[c]? = some k ∧ k.alloc = false) ∧
        ∀ j < c, ∀ k, s.ctxs[j]? = some k → k.alloc = true := by
  unfold State.freeCtx?
  rw [List.findIdx?_eq_some_iff_getElem]
  constructor
  · rintro ⟨hlt, hc, hj⟩
    rw [List.length_take] at hlt
    refine ⟨by omega, ⟨s.ctxs[c]'(by omega), List.getElem?_eq_getElem _, by simpa using hc⟩, ?_⟩
    intro j hjc k hk
    have h1 := hj j hjc
    obtain ⟨hl, rfl⟩ := List.getElem?_eq_some_iff.mp hk
    simpa using h1
  · rintro ⟨hn, ⟨k, hk, ha⟩, hj⟩
    obtain ⟨hl, rfl⟩ := List.getElem?_eq_some_iff.mp hk
    refine ⟨by simp; omega, by simpa using ha, ?_⟩
    intro j hjc
    have := hj j hjc (s.ctxs[j]'(by omega)) (List.getElem?_eq_getElem _)
    simpa using this

theorem freeCtx?_eq_none {s : State} :
    s.freeCtx? = none ↔ ∀ c < s.cfg.nctx, ∀ k, s.ctxs[c]? = some k → k.alloc = true := by
  unfold State.freeCtx?
  rw [List.findIdx?_eq_none_iff]
  constructor
  · intro h c hc k hk
    have := h k (List.mem_take_iff_getElem.mpr (by
      obtain ⟨hl, rfl⟩ := List.getElem?_eq_some_iff.mp hk
      exact ⟨c, by rw [Nat.lt_min]; exact ⟨hc, hl⟩, rfl⟩))
    simpa using this
  · intro h k hk
    obtain ⟨c, hc, rfl⟩ := List.mem_take_iff_getElem.mp hk
    rw [Nat.lt_min] at hc
    have := h c hc.1 _ (List.getElem?_eq_getElem hc.2)
    simpa using this

/-- UPDATE's checks (2) to (5) as one proposition (R141). -/
theorem updateReady_iff {s : State} {k : Context} {n : BitVec 24} :
    s.updateReady k n = true ↔
      k.inited = true ∧ s.btValid = true ∧ k.dp.toNat + n.toNat ≤ k.len.toNat ∧ s.payLen = 3 * n.toNat := by
  simp [State.updateReady, and_assoc]

/-- CHAINBACK's checks (2) to (4) as one proposition (R161). -/
theorem chainbackReady_iff {s : State} {k : Context} {n : BitVec 16} :
    s.chainbackReady k n = true ↔ s.payLen = 0 ∧ k.inited = true ∧ n.toNat + TAIL ≤ k.dp.toNat := by
  simp [State.chainbackReady, and_assoc]

theorem histInRange_iff {cfg : Config} {first count : Nat} :
    histInRange cfg first count = true ↔ count = 0 ∨ first + count ≤ cfg.histDepth := by
  simp [histInRange]

/-- The handle that must be valid before a command's other checks: that of INIT, UPDATE and CHAINBACK (R112). -/
def checkedHandle : Instr → Option Handle
  | .init h _ => some h
  | .update h _ => some h
  | .chainback h _ _ => some h
  | .setpoly _ _ _ => none
  | .create _ => none
  | .destroy _ => none
  | .rsEncode _ => none

/-- The ERR_PRECOND causes that leave the state as it is (R178): all of them but UPDATE's. -/
def precondFails (s : State) : Instr → Prop
  | .setpoly _ _ _ => s.payLen ≠ 0
  | .create _ => s.payLen ≠ 0
  | .init h _ => s.payLen ≠ 0 ∧ ∃ k, s.validCtx? h = some k
  | .update _ _ => False
  | .chainback h n _ => ∃ k, s.validCtx? h = some k ∧ s.chainbackReady k n = false
  | .destroy _ => s.payLen ≠ 0
  | .rsEncode pad => NN < s.cfg.nroots + pad.toNat ∨ s.payLen + s.cfg.nroots + pad.toNat ≠ NN

/-- What each command can do to a state, with its response: one constructor per way a command ends in a next state. -/
inductive Effect (s : State) : Instr → State → Response → Prop where
  | badHandle (i : Instr) (h : Handle) (hi : checkedHandle i = some h) (hv : s.validCtx? h = none) :
      Effect s i (s.send ⟨.errHandle, 0#32, []⟩) ⟨.errHandle, 0#32, []⟩
  | noRoom (len : BitVec 24) (hp : s.payLen = 0) (hn : s.cfg.histDepth < len.toNat ∨ s.freeCtx? = none) :
      Effect s (.create len) (s.send ⟨.errAlloc, 0#32, []⟩) ⟨.errAlloc, 0#32, []⟩
  | precond (i : Instr) (hp : precondFails s i) :
      Effect s i (s.send ⟨.errPrecond, 0#32, []⟩) ⟨.errPrecond, 0#32, []⟩
  | updateFailed (ctx : Handle) (n : BitVec 24) (k : Context) (hv : s.validCtx? ctx = some k)
      (hr : s.updateReady k n = false) :
      Effect s (.update ctx n) ((s.setCtx ctx.toNat k.invalidate).send ⟨.errPrecond, 0#32, []⟩) ⟨.errPrecond, 0#32, []⟩
  | setpoly (p0 p1 p2 : Poly) (hp : s.payLen = 0) :
      Effect s (.setpoly p0 p1 p2) ((s.setBt (branchTable p0 p1 p2)).send ⟨.ok, 0#32, []⟩) ⟨.ok, 0#32, []⟩
  | create (len : BitVec 24) (c : Nat) (k : Context) (hp : s.payLen = 0) (hl : len.toNat ≤ s.cfg.histDepth)
      (hf : s.freeCtx? = some c) (hk : s.ctxs[c]? = some k) :
      Effect s (.create len) ((s.setCtx c (k.allocate len)).send ⟨.ok, BitVec.ofNat 32 c, []⟩)
        ⟨.ok, BitVec.ofNat 32 c, []⟩
  | init (ctx : Handle) (start : TrellisState) (k : Context) (hp : s.payLen = 0) (hv : s.validCtx? ctx = some k) :
      Effect s (.init ctx start) ((s.setCtx ctx.toNat (k.start start)).send ⟨.ok, 0#32, []⟩) ⟨.ok, 0#32, []⟩
  | update (ctx : Handle) (n : BitVec 24) (k : Context) (hv : s.validCtx? ctx = some k)
      (hr : s.updateReady k n = true) (hh : histInRange s.cfg k.dp.toNat n.toNat = true) :
      Effect s (.update ctx n)
        ((s.setCtx ctx.toNat (vitRun s.bt k (symbolTriples s.payIn)).1).send
          ⟨.ok, (vitRun s.bt k (symbolTriples s.payIn)).2, []⟩)
        ⟨.ok, (vitRun s.bt k (symbolTriples s.payIn)).2, []⟩
  | chainback (ctx : Handle) (n : BitVec 16) (e : TrellisState) (k : Context) (hv : s.validCtx? ctx = some k)
      (hr : s.chainbackReady k n = true) (hh : histInRange s.cfg TAIL n.toNat = true) :
      Effect s (.chainback ctx n e) (s.send ⟨.ok, endMetric k e, chainOutput k.hist n.toNat e⟩)
        ⟨.ok, endMetric k e, chainOutput k.hist n.toNat e⟩
  | destroyNoop (ctx : Handle) (hp : s.payLen = 0) (hv : s.validCtx? ctx = none) :
      Effect s (.destroy ctx) (s.send ⟨.ok, 0#32, []⟩) ⟨.ok, 0#32, []⟩
  | destroy (ctx : Handle) (k : Context) (hp : s.payLen = 0) (hv : s.validCtx? ctx = some k) :
      Effect s (.destroy ctx) ((s.setCtx ctx.toNat k.release).send ⟨.ok, 0#32, []⟩) ⟨.ok, 0#32, []⟩
  | rsEncode (pad : Byte) (h : s.payLen + s.cfg.nroots + pad.toNat = NN) :
      Effect s (.rsEncode pad)
        (({ s with parity := rsParity s.cfg s.payIn } : State).send ⟨.ok, 0#32, rsParity s.cfg s.payIn⟩)
        ⟨.ok, 0#32, rsParity s.cfg s.payIn⟩

/-- A command that answers a next state had one of its effects. -/
theorem exec_effect {i : Instr} {s t : State} (h : exec i s = .next t) : ∃ r, Effect s i t r := by
  cases i with
  | setpoly p0 p1 p2 =>
    simp only [exec, execSetpoly, respond_eq, raise_eq] at h
    split at h <;> cases h
    · exact ⟨_, .precond _ ‹_›⟩
    · exact ⟨_, .setpoly _ _ _ (not_not.mp ‹_›)⟩
  | create len =>
    simp only [exec, execCreate, createAt, respond_eq, raise_eq] at h
    split at h
    · cases h; exact ⟨_, .precond _ ‹_›⟩
    · rename_i hp
      split at h
      · cases h; exact ⟨_, .noRoom _ (not_not.mp hp) (.inl ‹_›)⟩
      · split at h
        · rename_i c hc
          obtain ⟨-, ⟨k, hk, -⟩, -⟩ := freeCtx?_eq_some.mp hc
          simp only [hk] at h
          cases h
          exact ⟨_, .create _ _ _ (not_not.mp hp) (by omega) hc hk⟩
        · cases h; exact ⟨_, .noRoom _ (not_not.mp hp) (.inr ‹_›)⟩
  | init ctx start =>
    simp only [exec, execInit, respond_eq, raise_eq] at h
    split at h
    · cases h; exact ⟨_, .badHandle _ _ rfl ‹_›⟩
    · split at h <;> cases h
      · exact ⟨_, .precond _ ⟨‹_›, _, ‹_›⟩⟩
      · exact ⟨_, .init _ _ _ (not_not.mp ‹_›) ‹_›⟩
  | update ctx n =>
    simp only [exec, execUpdate, updateRun, respond_eq, raise_eq] at h
    split at h
    · cases h; exact ⟨_, .badHandle _ _ rfl ‹_›⟩
    · split at h
      · split at h
        · cases h; exact ⟨_, .update _ _ _ ‹_› ‹_› ‹_›⟩
        · cases h
      · cases h; exact ⟨_, .updateFailed _ _ _ ‹_› (Bool.eq_false_iff.mpr ‹_›)⟩
  | chainback ctx n e =>
    simp only [exec, execChainback, respond_eq, raise_eq] at h
    split at h
    · cases h; exact ⟨_, .badHandle _ _ rfl ‹_›⟩
    · split at h
      · split at h
        · cases h; exact ⟨_, .chainback _ _ _ _ ‹_› ‹_› ‹_›⟩
        · cases h
      · cases h; exact ⟨_, .precond _ ⟨_, ‹_›, Bool.eq_false_iff.mpr ‹_›⟩⟩
  | destroy ctx =>
    simp only [exec, execDestroy, respond_eq, raise_eq] at h
    split at h
    · cases h; exact ⟨_, .precond _ ‹_›⟩
    · split at h <;> cases h
      · exact ⟨_, .destroyNoop _ (not_not.mp ‹_›) ‹_›⟩
      · exact ⟨_, .destroy _ _ (not_not.mp ‹_›) ‹_›⟩
  | rsEncode pad =>
    simp only [exec, execRsEncode, respond_eq, raise_eq] at h
    split at h
    · cases h; exact ⟨_, .precond _ (.inl ‹_›)⟩
    · split at h <;> cases h
      · exact ⟨_, .precond _ (.inr ‹_›)⟩
      · exact ⟨_, .rsEncode _ (not_not.mp ‹_›)⟩

/-- A command issues exactly one response: the one its effect names (R73). -/
theorem Effect.answered {i : Instr} {s t : State} {r : Response} (h : Effect s i t r) : s.answered t r := by
  cases h <;> exact ⟨rfl, rfl, rfl⟩

/-- No command writes the configuration (R20). -/
theorem Effect.cfg_eq {i : Instr} {s t : State} {r : Response} (h : Effect s i t r) : t.cfg = s.cfg := by
  cases h <;> rfl

/-- What a step on a command does: an illegal word is answered and changes nothing, a legal one has its effect. -/
theorem step_command {s t : State} {c : Command} {rest : List Input} (h : s.pending = .command c :: rest)
    (ht : step s = .next t) :
    (∃ e, decode c.word = .error e ∧ t = (s.accept c rest).send ⟨.errIllegal, 0#32, []⟩) ∨
    ∃ i r, decode c.word = .ok i ∧ Effect (s.accept c rest) i t r := by
  simp only [step, h] at ht
  rcases hd : decode c.word with e | i
  · simp [hd] at ht
    exact .inl ⟨e, rfl, ht.symm⟩
  · simp only [hd] at ht
    obtain ⟨r, hr⟩ := exec_effect ht
    exact .inr ⟨i, r, rfl, hr⟩

end Sys2Proof.Machine
end

