-- ==== Sys2Proof/Laws/Trellis.lean ====
section
/-! SUPPORT. The trellis update: metrics as integers, the branch metric, what one step writes, and what a run of steps
keeps. -/

namespace Sys2Proof.Machine

open Sys2Proof

/-! ### Metrics as integers -/

theorem toInt_metricOf {v : Int} (h1 : -32768 ≤ v) (h2 : v ≤ 32767) : (metricOf v).toInt = v := by
  unfold metricOf
  rw [BitVec.toInt_ofInt]
  exact Int.bmod_eq_of_le (by simpa using h1) (by simp; omega)

theorem bankAt_ge (b : Bank) (p : Fin 256) : -32768 ≤ bankAt b p := by
  unfold bankAt
  have := BitVec.le_toInt b[p]
  simpa using this

theorem bankAt_le (b : Bank) (p : Fin 256) : bankAt b p ≤ 32767 := by
  unfold bankAt
  generalize b[p] = x
  have := x.toInt_lt
  norm_num at this
  omega

theorem bankAt_ofFn (f : Fin 256 → Metric) (p : Fin 256) : bankAt (Vector.ofFn f) p = (f p).toInt := by
  simp [bankAt]

/-- Two banks with the same metrics are the same bank. -/
theorem bank_ext {a b : Bank} (h : ∀ p, bankAt a p = bankAt b p) : a = b := by
  apply Vector.ext
  intro i hi
  exact BitVec.eq_of_toInt_eq (h ⟨i, hi⟩)

/-! ### Branch metrics (R133, R148) -/

/-- A symbol's distance is the symbol for an expected 0 and 255 minus it for an expected 1. -/
theorem symbolDistance_eq (row : BranchRow) (sym : Byte) (i : Fin 128) :
    symbolDistance row sym i = if row[i] then 255 - sym.toNat else sym.toNat := by
  unfold symbolDistance
  split
  · have : sym ^^^ 255#8 = ~~~sym := by
      rw [show (255#8 : Byte) = BitVec.allOnes 8 from rfl, BitVec.xor_allOnes]
    rw [this, BitVec.toNat_not]
  · simp

theorem symbolDistance_le (row : BranchRow) (sym : Byte) (i : Fin 128) : symbolDistance row sym i ≤ 255 := by
  unfold symbolDistance
  exact Nat.le_of_lt_succ (BitVec.isLt _)

/-- R133: a branch metric is 0 to 765. -/
theorem branchMetric_le (bt : Vector BranchRow 3) (sym : Vector Byte 3) (i : Fin 128) :
    branchMetric bt sym i ≤ 765 := by
  have h0 := symbolDistance_le bt[0] sym[0] i
  have h1 := symbolDistance_le bt[1] sym[1] i
  have h2 := symbolDistance_le bt[2] sym[2] i
  unfold branchMetric
  omega

theorem transitionCost_le (bt : Vector BranchRow 3) (sym : Vector Byte 3) (p : Fin 256) (b : Bool) :
    transitionCost bt sym p b ≤ 765 := by
  have := branchMetric_le bt sym (butterflyFrom p)
  unfold transitionCost
  rw [show BM_MAX = 765 from rfl]
  split <;> omega

/-! ### Add, compare, select (R134, R135) -/

theorem sat16_of_le {v : Int} (h : v ≤ 32767) : sat16 v = v := min_eq_left h

theorem selectMin_fst (a b : Int) : (selectMin a b).1 = min a b := by
  unfold selectMin
  split <;> simp <;> omega

theorem selectMin_snd (a b : Int) : (selectMin a b).2 = decide (b < a) := by
  unfold selectMin
  split <;> simp_all

/-- The predecessors of a successor: s >> 1 and (s >> 1) + 128 (R130). -/
def lowOf (s : Fin 256) : Fin 256 := lowPred (butterflyOf s)

def highOf (s : Fin 256) : Fin 256 := highPred (butterflyOf s)

/-- The candidate of the lower and of the upper predecessor of s. -/
def lowCand (bt : Vector BranchRow 3) (sym : Vector Byte 3) (old : Bank) (s : Fin 256) : Int :=
  sat16 (bankAt old (lowOf s) + transitionCost bt sym (lowOf s) (isOdd s))

def highCand (bt : Vector BranchRow 3) (sym : Vector Byte 3) (old : Bank) (s : Fin 256) : Int :=
  sat16 (bankAt old (highOf s) + transitionCost bt sym (highOf s) (isOdd s))

theorem butterflyFrom_lowOf (s : Fin 256) : butterflyFrom (lowOf s) = butterflyOf s := by
  apply Fin.ext
  have := s.isLt
  simp [butterflyFrom, lowOf, lowPred, butterflyOf]
  omega

theorem butterflyFrom_highOf (s : Fin 256) : butterflyFrom (highOf s) = butterflyOf s := by
  apply Fin.ext
  have := s.isLt
  simp [butterflyFrom, highOf, highPred, butterflyOf]
  omega

theorem transitionCost_lowOf (bt : Vector BranchRow 3) (sym : Vector Byte 3) (s : Fin 256) :
    transitionCost bt sym (lowOf s) (isOdd s) =
      if isOdd s then BM_MAX - branchMetric bt sym (butterflyOf s) else branchMetric bt sym (butterflyOf s) := by
  have hs := s.isLt
  have : decide (128 ≤ (lowOf s).val) = false := by
    apply decide_eq_false
    show ¬128 ≤ s.val / 2
    omega
  unfold transitionCost
  rw [this, butterflyFrom_lowOf]
  cases isOdd s <;> rfl

theorem transitionCost_highOf (bt : Vector BranchRow 3) (sym : Vector Byte 3) (s : Fin 256) :
    transitionCost bt sym (highOf s) (isOdd s) =
      if isOdd s then branchMetric bt sym (butterflyOf s) else BM_MAX - branchMetric bt sym (butterflyOf s) := by
  have : decide (128 ≤ (highOf s).val) = true := by
    simp [highOf, highPred, butterflyOf]
  unfold transitionCost
  rw [this, butterflyFrom_highOf]
  cases isOdd s <;> rfl

/-- What a butterfly selects for successor s, in terms of its two predecessors (R134, R135). -/
theorem butterflyAt_select (bt : Vector BranchRow 3) (sym : Vector Byte 3) (old : Bank) (s : Fin 256) :
    (if isOdd s then (butterflyAt bt sym old (butterflyOf s)).oddMetric
      else (butterflyAt bt sym old (butterflyOf s)).evenMetric) = min (lowCand bt sym old s) (highCand bt sym old s) ∧
    (if isOdd s then (butterflyAt bt sym old (butterflyOf s)).oddDecision
      else (butterflyAt bt sym old (butterflyOf s)).evenDecision) =
        decide (highCand bt sym old s < lowCand bt sym old s) := by
  have hb := branchMetric_le bt sym (butterflyOf s)
  have hc : ((BM_MAX - branchMetric bt sym (butterflyOf s) : Nat) : Int) =
      (BM_MAX : Int) - branchMetric bt sym (butterflyOf s) := by
    rw [show BM_MAX = 765 from rfl]
    omega
  unfold lowCand highCand
  rw [transitionCost_lowOf, transitionCost_highOf]
  cases isOdd s <;>
    simp only [butterflyAt, butterfly, selectMin_fst, selectMin_snd, lowOf, highOf, if_true, Bool.false_eq_true, if_false,
      hc, and_self]

theorem cand_range (bt : Vector BranchRow 3) (sym : Vector Byte 3) (old : Bank) (s : Fin 256) :
    (-32768 ≤ lowCand bt sym old s ∧ lowCand bt sym old s ≤ 32767) ∧
    (-32768 ≤ highCand bt sym old s ∧ highCand bt sym old s ≤ 32767) := by
  have h1 := bankAt_ge old (lowOf s)
  have h2 := bankAt_ge old (highOf s)
  unfold lowCand highCand sat16
  show (_ ∧ _ ≤ (32767 : Int)) ∧ (_ ∧ _ ≤ (32767 : Int))
  simp only [show METRIC_MAX = (32767 : Int) from rfl]
  omega

/-- The new metric of s is the smaller candidate (R135, R138). -/
theorem bankAt_newBank (bt : Vector BranchRow 3) (sym : Vector Byte 3) (old : Bank) (s : Fin 256) :
    bankAt (newBank bt sym old) s = min (lowCand bt sym old s) (highCand bt sym old s) := by
  have hr := cand_range bt sym old s
  unfold newBank
  rw [bankAt_ofFn]
  simp only []
  rw [(butterflyAt_select bt sym old s).1]
  exact toInt_metricOf (by omega) (by omega)

/-- The decision bit of s says whether the upper predecessor won; a tie goes to the lower one (R135, R137). -/
theorem getLsbD_decisionRecord (bt : Vector BranchRow 3) (sym : Vector Byte 3) (old : Bank) (s : Fin 256) :
    (decisionRecord bt sym old).getLsbD s.val = decide (highCand bt sym old s < lowCand bt sym old s) := by
  unfold decisionRecord
  rw [BitVec.getLsbD_ofFnLE]
  simp only [s.isLt, dite_true, Fin.eta]
  exact (butterflyAt_select bt sym old s).2

/-! ### Renormalisation (R142) -/

theorem foldl_min_spec (l : List Metric) (a : Int) :
    (l.foldl (fun lo m => min lo m.toInt) a ≤ a) ∧ (∀ m ∈ l, l.foldl (fun lo m => min lo m.toInt) a ≤ m.toInt) ∧
    (l.foldl (fun lo m => min lo m.toInt) a = a ∨ ∃ m ∈ l, l.foldl (fun lo m => min lo m.toInt) a = m.toInt) := by
  induction l generalizing a with
  | nil => simp
  | cons x l ih =>
    obtain ⟨h1, h2, h3⟩ := ih (min a x.toInt)
    simp only [List.foldl_cons]
    refine ⟨by omega, ?_, ?_⟩
    · intro m hm
      rcases List.mem_cons.mp hm with rfl | hm
      · omega
      · exact h2 m hm
    · rcases h3 with h3 | ⟨m, hm, h3⟩
      · rcases min_choice a x.toInt with h | h
        · exact .inl (by omega)
        · exact .inr ⟨x, by simp, by omega⟩
      · exact .inr ⟨m, by simp [hm], h3⟩

/-- The global minimum is at most every metric and is one of them. -/
theorem bankMin_spec (b : Bank) : (∀ p, bankMin b ≤ bankAt b p) ∧ ∃ p, bankMin b = bankAt b p := by
  obtain ⟨h1, h2, h3⟩ := foldl_min_spec b.toList (bankAt b 0)
  refine ⟨fun p => h2 b[p] (by simp), ?_⟩
  rcases h3 with h3 | ⟨m, hm, h3⟩
  · exact ⟨0, h3⟩
  · rw [Vector.mem_toList_iff, Vector.mem_iff_getElem] at hm
    obtain ⟨i, hi, rfl⟩ := hm
    exact ⟨⟨i, hi⟩, h3⟩

theorem bankMin_ge (b : Bank) : -32768 ≤ bankMin b := by
  obtain ⟨p, hp⟩ := (bankMin_spec b).2
  rw [hp]
  exact bankAt_ge b p

/-- The adjust never lowers a metric below METRIC_MIN. -/
theorem renormAdjust_le (b : Bank) (p : Fin 256) : (renormAdjust b : Int) ≤ bankAt b p + 32768 := by
  have h1 := (bankMin_spec b).1 p
  have h2 := bankMin_ge b
  have h3 := bankAt_ge b p
  unfold renormAdjust
  simp only [show METRIC_MIN = (-32768 : Int) from rfl]
  split <;> omega

theorem bankAt_lowerBy {b : Bank} {a : Nat} {p : Fin 256} (h : (a : Int) ≤ bankAt b p + 32768) :
    bankAt (lowerBy a b) p = bankAt b p - a := by
  have h1 := bankAt_le b p
  unfold lowerBy bankAt
  simp only [Fin.getElem_fin, Vector.getElem_map]
  exact toInt_metricOf (v := bankAt b p - a) (by omega) (by omega)

/-- The bank a step leaves: every new metric lowered by the adjust. -/
theorem bankAt_renorm (b : Bank) (p : Fin 256) : bankAt (lowerBy (renormAdjust b) b) p = bankAt b p - renormAdjust b :=
  bankAt_lowerBy (renormAdjust_le b p)

/-- When the test on state 0 fires the smallest metric is brought to METRIC_MIN exactly (R142). -/
theorem renorm_min {b : Bank} (h : RENORM_THRESHOLD ≤ bankAt b 0) :
    ∃ p, bankAt (lowerBy (renormAdjust b) b) p = METRIC_MIN := by
  obtain ⟨p, hp⟩ := (bankMin_spec b).2
  have h2 := bankMin_ge b
  refine ⟨p, ?_⟩
  rw [bankAt_renorm, ← hp]
  unfold renormAdjust
  rw [if_pos h]
  simp only [show METRIC_MIN = (-32768 : Int) from rfl]
  omega

/-! ### One step on a context (R140, R143) -/

section
variable (bt : Vector BranchRow 3) (ka : Context × Word) (sym : Vector Byte 3)

@[simp] theorem vitStep_alloc : (vitStep bt ka sym).1.alloc = ka.1.alloc := rfl
@[simp] theorem vitStep_inited : (vitStep bt ka sym).1.inited = ka.1.inited := rfl
@[simp] theorem vitStep_len : (vitStep bt ka sym).1.len = ka.1.len := rfl
@[simp] theorem vitStep_dp : (vitStep bt ka sym).1.dp = ka.1.dp + 1#25 := rfl
@[simp] theorem vitStep_sel : (vitStep bt ka sym).1.sel = 1 - ka.1.sel := rfl
@[simp] theorem vitStep_hist : (vitStep bt ka sym).1.hist =
    ka.1.hist.write ka.1.dp.toNat (decisionRecord bt sym ka.1.oldBank) := rfl
@[simp] theorem vitStep_acc : (vitStep bt ka sym).2 =
    ka.2 + BitVec.ofNat 32 (renormAdjust (newBank bt sym ka.1.oldBank)) := rfl

@[simp] theorem vitStep_oldBank : (vitStep bt ka sym).1.oldBank =
    lowerBy (renormAdjust (newBank bt sym ka.1.oldBank)) (newBank bt sym ka.1.oldBank) := by
  simp [vitStep, Context.oldBank, Context.newSel]
end

/-- The context part of a step does not look at ACC. -/
theorem vitStep_fst (bt : Vector BranchRow 3) (k : Context) (a b : Word) (sym : Vector Byte 3) :
    (vitStep bt (k, a) sym).1 = (vitStep bt (k, b) sym).1 := rfl

/-- A run from accumulator `a` ends in the same context as one from 0, with `a` added (R144). -/
theorem foldl_vitStep (bt : Vector BranchRow 3) (syms : List (Vector Byte 3)) (k : Context) (a : Word) :
    syms.foldl (vitStep bt) (k, a) = ((vitRun bt k syms).1, a + (vitRun bt k syms).2) := by
  unfold vitRun
  induction syms generalizing k a with
  | nil => simp
  | cons sym syms ih =>
    have ha := ih (vitStep bt (k, 0#32) sym).1 (vitStep bt (k, a) sym).2
    have h0 := ih (vitStep bt (k, 0#32) sym).1 (vitStep bt (k, 0#32) sym).2
    rw [List.foldl_cons, List.foldl_cons]
    refine (show _ = _ from ha).trans ?_
    rw [show List.foldl (vitStep bt) (vitStep bt (k, 0#32) sym) syms = _ from h0]
    simp [BitVec.add_assoc]

@[simp] theorem vitRun_nil (bt : Vector BranchRow 3) (k : Context) : vitRun bt k [] = (k, 0#32) := rfl

theorem vitRun_cons (bt : Vector BranchRow 3) (k : Context) (sym : Vector Byte 3) (syms : List (Vector Byte 3)) :
    vitRun bt k (sym :: syms) =
      ((vitRun bt (vitStep bt (k, 0#32) sym).1 syms).1,
        BitVec.ofNat 32 (renormAdjust (newBank bt sym k.oldBank)) +
          (vitRun bt (vitStep bt (k, 0#32) sym).1 syms).2) := by
  show (sym :: syms).foldl (vitStep bt) (k, 0#32) = _
  rw [List.foldl_cons, show vitStep bt (k, 0#32) sym = ((vitStep bt (k, 0#32) sym).1, (vitStep bt (k, 0#32) sym).2) from rfl,
    foldl_vitStep]
  simp

theorem vitRun_append (bt : Vector BranchRow 3) (k : Context) (xs ys : List (Vector Byte 3)) :
    vitRun bt k (xs ++ ys) =
      ((vitRun bt (vitRun bt k xs).1 ys).1, (vitRun bt k xs).2 + (vitRun bt (vitRun bt k xs).1 ys).2) := by
  show (xs ++ ys).foldl (vitStep bt) (k, 0#32) = _
  rw [List.foldl_append, show xs.foldl (vitStep bt) (k, 0#32) = ((vitRun bt k xs).1, (vitRun bt k xs).2) from rfl,
    foldl_vitStep]

@[simp] theorem vitRun_alloc (bt : Vector BranchRow 3) (k : Context) (syms : List (Vector Byte 3)) :
    (vitRun bt k syms).1.alloc = k.alloc := by
  induction syms generalizing k with
  | nil => rfl
  | cons sym syms ih => rw [vitRun_cons, ih, vitStep_alloc]

@[simp] theorem vitRun_inited (bt : Vector BranchRow 3) (k : Context) (syms : List (Vector Byte 3)) :
    (vitRun bt k syms).1.inited = k.inited := by
  induction syms generalizing k with
  | nil => rfl
  | cons sym syms ih => rw [vitRun_cons, ih, vitStep_inited]

@[simp] theorem vitRun_len (bt : Vector BranchRow 3) (k : Context) (syms : List (Vector Byte 3)) :
    (vitRun bt k syms).1.len = k.len := by
  induction syms generalizing k with
  | nil => rfl
  | cons sym syms ih => rw [vitRun_cons, ih, vitStep_len]

/-- A payload of 3 n bytes holds n symbol triples (R54 (b), R141). -/
theorem symbolTriples_length {l : List Byte} {n : Nat} (h : l.length = 3 * n) : (symbolTriples l).length = n := by
  induction n generalizing l with
  | zero => simp_all [symbolTriples]
  | succ n ih =>
    obtain _ | ⟨a, _ | ⟨b, _ | ⟨c, l⟩⟩⟩ := l
    all_goals simp only [List.length_nil, List.length_cons] at h
    · omega
    · omega
    · omega
    · simp only [symbolTriples, List.length_cons]
      rw [ih (by omega)]

theorem symbolTriples_append {l m : List Byte} {n : Nat} (h : l.length = 3 * n) :
    symbolTriples (l ++ m) = symbolTriples l ++ symbolTriples m := by
  induction n generalizing l with
  | zero => simp_all [symbolTriples]
  | succ n ih =>
    obtain _ | ⟨a, _ | ⟨b, _ | ⟨c, l⟩⟩⟩ := l
    all_goals simp only [List.length_nil, List.length_cons] at h
    · omega
    · omega
    · omega
    · simp only [List.cons_append, symbolTriples]
      rw [ih (by omega)]

end Sys2Proof.Machine
end

