-- ==== Sys2Proof/Laws/Chainback.lean ====
section
/-! SUPPORT. The walk of CHAINBACK: one step, its bits, and the length of what it writes (43_chainback.md R163 to R165);
and the metrics INIT leaves. -/

namespace Sys2Proof.Machine

open Sys2Proof

/-- INIT's metrics: METRIC_MIN for START, METRIC_MIN + INIT_BIAS for every other state (R116). -/
theorem bankAt_startBank (st : TrellisState) (p : Fin 256) :
    bankAt (startBank st) p = if p.val = st.toNat then -32768 else -27768 := by
  unfold bankAt startBank
  simp only [Fin.getElem_fin, Vector.getElem_set, Vector.getElem_replicate]
  by_cases h : st.toNat = p.val
  · rw [if_pos h, if_pos h.symm]
    rfl
  · rw [if_neg h, if_neg (Ne.symm h)]
    rfl

/-- The predecessor as a number: S / 2 plus 128 times the decision (R163). -/
theorem toNat_chainStep (hist : Memory) (r : Nat) (st : TrellisState) :
    (chainStep hist r st).toNat = st.toNat / 2 + 128 * ((hist.read r).getLsbD st.toNat).toNat := by
  unfold chainStep Memory.readBit
  generalize (hist.read r).getLsbD st.toNat = b
  revert st
  cases b <;> decide

/-- The decision enters at bit 7 and every other bit moves down by one (R163). -/
theorem getLsbD_chainStep (hist : Memory) (r : Nat) (st : TrellisState) (j : Nat) (h : j < 8) :
    (chainStep hist r st).getLsbD j = if j = 7 then (hist.read r).getLsbD st.toNat else st.getLsbD (j + 1) := by
  unfold chainStep Memory.readBit
  generalize (hist.read r).getLsbD st.toNat = b
  revert j st
  cases b <;> decide

/-- The walk starts at ENDSTATE (R164). -/
@[simp] theorem walkState_start (hist : Memory) (nbits : Nat) (e : TrellisState) : walkState hist nbits e nbits = e := by
  simp [walkState]

/-- S after the step for bit n, from S before it (R163, R164). -/
theorem walkState_step (hist : Memory) (e : TrellisState) {nbits n : Nat} (h : n < nbits) :
    walkState hist nbits e n = chainStep hist (n + 8) (walkState hist nbits e (n + 1)) := by
  unfold walkState
  rw [show nbits - n = (nbits - (n + 1)) + 1 by omega, List.range_succ, List.foldl_append]
  simp only [List.foldl_cons, List.foldl_nil]
  rw [show nbits - 1 - (nbits - (n + 1)) + TAIL = n + 8 by rw [show TAIL = 8 from rfl]; omega]

/-- The walk keeps the length of the output buffer. -/
@[simp] theorem chainWalk_length (hist : Memory) (n : Nat) (st : TrellisState) (out : List Byte) :
    (chainWalk hist n st out).length = out.length := by
  induction n generalizing st out with
  | zero => rfl
  | succ n ih => rw [chainWalk, ih, List.length_set]

/-- Below step n the walk writes S to the bytes 8 j <= n - 1 and leaves the others alone (R165). -/
theorem chainWalk_getD (hist : Memory) (nbits : Nat) (e : TrellisState) (n : Nat) (out : List Byte) (hn : n ≤ nbits)
    (j : Nat) (hj : j < out.length) :
    (chainWalk hist n (walkState hist nbits e n) out).getD j 0#8 =
      if 8 * j < n then walkState hist nbits e (8 * j) else out.getD j 0#8 := by
  induction n generalizing out with
  | zero => simp [chainWalk]
  | succ n ih =>
    rw [chainWalk, show n + TAIL = n + 8 from rfl, ← walkState_step hist e (by omega : n < nbits),
      ih _ (by omega) (by simpa)]
    by_cases h1 : 8 * j < n
    · rw [if_pos h1, if_pos (by omega)]
    · rw [if_neg h1]
      by_cases h2 : 8 * j < n + 1
      · obtain rfl : n = 8 * j := by omega
        rw [if_pos h2, show 8 * j / 8 = j by omega, List.getD_eq_getElem?_getD, List.getElem?_set_self hj]
        rfl
      · rw [if_neg h2, List.getD_eq_getElem?_getD, List.getD_eq_getElem?_getD, List.getElem?_set_ne (by omega)]

end Sys2Proof.Machine
end

