-- ==== Sys2Proof/Laws/PerInstr.lean ====
section
/-! SUPPORT. Facts about every command as syntax, one lemma per constructor. -/

namespace Sys2Proof.Laws.Encoding

open Sys2Proof

/-- The encoding of a command matches its row of the opcode map (R76). -/
def Statement (i : Instr) : Prop := encode i &&& (opcodeRow i).2 = (opcodeRow i).1

theorem setpoly (p0 p1 p2 : Poly) : Statement (.setpoly p0 p1 p2) := by
  apply BitVec.eq_of_getLsbD_eq
  intro j hj
  simp only [encode, opcodeRow, BitVec.getLsbD_and, BitVec.getLsbD_append]
  interval_cases j <;> simp

theorem create (len : BitVec 24) : Statement (.create len) := by
  apply BitVec.eq_of_getLsbD_eq
  intro j hj
  simp only [encode, opcodeRow, BitVec.getLsbD_and, BitVec.getLsbD_append]
  interval_cases j <;> simp

theorem init (ctx : Handle) (start : TrellisState) : Statement (.init ctx start) := by
  apply BitVec.eq_of_getLsbD_eq
  intro j hj
  simp only [encode, opcodeRow, BitVec.getLsbD_and, BitVec.getLsbD_append]
  interval_cases j <;> simp

theorem update (ctx : Handle) (nsteps : BitVec 24) : Statement (.update ctx nsteps) := by
  apply BitVec.eq_of_getLsbD_eq
  intro j hj
  simp only [encode, opcodeRow, BitVec.getLsbD_and, BitVec.getLsbD_append]
  interval_cases j <;> simp

theorem chainback (ctx : Handle) (nbits : BitVec 16) (endstate : TrellisState) :
    Statement (.chainback ctx nbits endstate) := by
  apply BitVec.eq_of_getLsbD_eq
  intro j hj
  simp only [encode, opcodeRow, BitVec.getLsbD_and, BitVec.getLsbD_append]
  interval_cases j <;> simp

theorem destroy (ctx : Handle) : Statement (.destroy ctx) := by
  apply BitVec.eq_of_getLsbD_eq
  intro j hj
  simp only [encode, opcodeRow, BitVec.getLsbD_and, BitVec.getLsbD_append]
  interval_cases j <;> simp

theorem rsEncode (pad : Byte) : Statement (.rsEncode pad) := by
  apply BitVec.eq_of_getLsbD_eq
  intro j hj
  simp only [encode, opcodeRow, BitVec.getLsbD_and, BitVec.getLsbD_append]
  interval_cases j <;> simp

end Sys2Proof.Laws.Encoding
end

