-- ==== Sys2Proof/Laws/Range.lean ====
section
/-! SUPPORT. The metric range argument of 70_reset_and_hazards.md R212, for one step: the spread and the range of the old
bank are kept, and no candidate is clamped. -/

namespace Sys2Proof.Machine

open Sys2Proof

/-- The spread bound of R212 (a): no two metrics are more than 10355 apart. -/
theorem spreadOk.total {b : Bank} {t : Nat} (h : spreadOk b t) (p q : Fin 256) : bankAt b p - bankAt b q ≤ 10355 := by
  obtain ⟨h1, h2⟩ := h
  rw [show TAIL = 8 from rfl] at h1 h2
  by_cases ht : t < 8
  · have hpq := h2 ht p q
    rw [show INIT_BIAS = 5000 from rfl, show ((BM_MAX : Nat) : Int) = 765 from rfl] at hpq
    omega
  · have hpq := h1 8 (by omega) p q (by have := p.isLt; have := q.isLt; omega)
    norm_num at hpq
    omega

/-- A bank in range has candidates that `sat16` does not clamp (R212 (c)). -/
theorem rangeOk.cands {b : Bank} (hr : rangeOk b) (bt : Vector BranchRow 3) (sym : Vector Byte 3) (s : Fin 256) :
    lowCand bt sym b s = bankAt b (lowOf s) + transitionCost bt sym (lowOf s) (isOdd s) ∧
    highCand bt sym b s = bankAt b (highOf s) + transitionCost bt sym (highOf s) (isOdd s) := by
  have h1 := hr (lowOf s)
  have h2 := hr (highOf s)
  have h3 := transitionCost_le bt sym (lowOf s) (isOdd s)
  have h4 := transitionCost_le bt sym (highOf s) (isOdd s)
  constructor <;> exact sat16_of_le (by omega)

/-- A new metric is at most 765 above that of either predecessor. -/
theorem rangeOk.newBank_le {b : Bank} (hr : rangeOk b) (bt : Vector BranchRow 3) (sym : Vector Byte 3) (s : Fin 256)
    (d : Bool) : bankAt (newBank bt sym b) s ≤ bankAt b (if d then highOf s else lowOf s) + 765 := by
  obtain ⟨h1, h2⟩ := hr.cands bt sym s
  have h3 := transitionCost_le bt sym (lowOf s) (isOdd s)
  have h4 := transitionCost_le bt sym (highOf s) (isOdd s)
  rw [bankAt_newBank, h1, h2]
  cases d <;> simp <;> omega

/-- A new metric is at least that of one of its predecessors. -/
theorem rangeOk.newBank_ge {b : Bank} (hr : rangeOk b) (bt : Vector BranchRow 3) (sym : Vector Byte 3) (s : Fin 256) :
    ∃ d : Bool, bankAt b (if d then highOf s else lowOf s) ≤ bankAt (newBank bt sym b) s := by
  obtain ⟨h1, h2⟩ := hr.cands bt sym s
  rw [bankAt_newBank, h1, h2]
  rcases min_choice (bankAt b (lowOf s) + transitionCost bt sym (lowOf s) (isOdd s) : Int)
    (bankAt b (highOf s) + transitionCost bt sym (highOf s) (isOdd s)) with h | h
  · exact ⟨false, by rw [h]; simp⟩
  · exact ⟨true, by rw [h]; simp⟩

/-- Predecessors on the same side share their bits above bit j - 1 when the states share theirs above bit j. -/
theorem pred_div {p q : Fin 256} {j : Nat} (hj : j ≤ 7) (h : p.val / 2 ^ (j + 1) = q.val / 2 ^ (j + 1)) (d : Bool) :
    (if d then highOf p else lowOf p).val / 2 ^ j = (if d then highOf q else lowOf q).val / 2 ^ j := by
  have h2 : p.val / 2 / 2 ^ j = q.val / 2 / 2 ^ j := by
    rw [Nat.div_div_eq_div_mul, Nat.div_div_eq_div_mul, ← Nat.pow_succ']
    exact h
  cases d
  · simpa [lowOf, lowPred, butterflyOf] using h2
  · obtain ⟨c, hc⟩ : ∃ c, 128 = c * 2 ^ j := ⟨2 ^ (7 - j), by rw [← Nat.pow_add]; simp [hj]⟩
    simp only [highOf, highPred, butterflyOf, if_true]
    rw [hc, Nat.add_mul_div_right _ _ (by positivity), Nat.add_mul_div_right _ _ (by positivity), h2]

/-- The butterflies of a step keep the spread, one step on (R212 (a)). -/
theorem spreadOk.newBank {b : Bank} {t : Nat} (hs : spreadOk b t) (hr : rangeOk b) (bt : Vector BranchRow 3)
    (sym : Vector Byte 3) : spreadOk (newBank bt sym b) (t + 1) := by
  obtain ⟨h1, h2⟩ := hs
  rw [show TAIL = 8 from rfl] at h1 h2
  constructor
  · intro j hj p q hpq
    rw [show TAIL = 8 from rfl] at hj
    rcases j with _ | j
    · obtain rfl : p = q := Fin.ext (by simpa using hpq)
      simp
    · obtain ⟨d, hd⟩ := hr.newBank_ge bt sym q
      have hp := hr.newBank_le bt sym p d
      have hold := h1 j (by omega) _ _ (pred_div (by omega) hpq d)
      rw [show ((BM_MAX : Nat) : Int) = 765 from rfl] at hold ⊢
      push_cast
      omega
  · intro ht p q
    rw [show TAIL = 8 from rfl] at ht
    obtain ⟨d, hd⟩ := hr.newBank_ge bt sym q
    have hp := hr.newBank_le bt sym p d
    have hold := h2 (by omega) (if d then highOf p else lowOf p) (if d then highOf q else lowOf q)
    rw [show ((BM_MAX : Nat) : Int) = 765 from rfl] at hold ⊢
    push_cast
    omega

/-- A renormalisation keeps the spread: it lowers every metric alike (R142). -/
theorem spreadOk.renorm {b : Bank} {t : Nat} (hs : spreadOk b t) : spreadOk (lowerBy (renormAdjust b) b) t := by
  obtain ⟨h1, h2⟩ := hs
  constructor
  · intro j hj p q h
    have := h1 j hj p q h
    simp only [bankAt_renorm]
    omega
  · intro ht p q
    have := h2 ht p q
    simp only [bankAt_renorm]
    omega

/-- After the renormalisation check every metric is at most 30371 (R212 (b)). -/
theorem spreadOk.range {b : Bank} {t : Nat} (hs : spreadOk b t) : rangeOk (lowerBy (renormAdjust b) b) := by
  intro p
  by_cases h : RENORM_THRESHOLD ≤ bankAt b 0
  · obtain ⟨q, hq⟩ := renorm_min h
    have := hs.renorm.total p q
    rw [hq, show METRIC_MIN = (-32768 : Int) from rfl] at this
    omega
  · have h0 : renormAdjust b = 0 := by rw [renormAdjust, if_neg h]
    have := hs.total p 0
    rw [show RENORM_THRESHOLD = (20017 : Int) from rfl] at h
    rw [bankAt_renorm, h0]
    omega

end Sys2Proof.Machine
end

