-- ==== Sys2Proof/Laws/ReedSolomon.lean ====
section
/-! SUPPORT. The division engine: the length of PARITY, and the fold of the message (40_rs_encoder.md R94, R95). -/

namespace Sys2Proof.Machine

open Sys2Proof

/-- Step 2b keeps the number of parity symbols. -/
@[simp] theorem addFeedback_length (cfg : Config) (fb : Byte) (P : List Byte) :
    (addFeedback cfg fb P).length = P.length := by
  unfold addFeedback
  split <;> simp

/-- A step keeps the number of parity symbols, when there is one. -/
theorem rsStep_length (cfg : Config) {P : List Byte} (d : Byte) (h : P ≠ []) : (rsStep cfg P d).length = P.length := by
  have := List.length_pos_iff.mpr h
  simp [rsStep]
  omega

theorem rsParity_nil (cfg : Config) : rsParity cfg [] = List.replicate cfg.nroots 0#8 := rfl

/-- The division takes the message symbols one after another (R95). -/
theorem rsParity_concat (cfg : Config) (data : List Byte) (d : Byte) :
    rsParity cfg (data ++ [d]) = rsStep cfg (rsParity cfg data) d := by
  simp [rsParity]

/-- PARITY has NROOTS symbols after any message (R25). -/
theorem rsParity_length {cfg : Config} (h : 1 ≤ cfg.nroots) (data : List Byte) :
    (rsParity cfg data).length = cfg.nroots := by
  induction data using List.reverseRecOn with
  | nil => simp [rsParity_nil]
  | append_singleton data d ih =>
    rw [rsParity_concat, rsStep_length _ _ (by rintro e; rw [e] at ih; simp at ih; omega), ih]

/-- The product XORed in from coefficient g: 0 when FEEDBACK is the sentinel, so that steps 2b and 2d read alike
(the m(g) of R94). -/
def feedbackTerm (cfg : Config) (fb : Byte) (g : Nat) : Byte := if fb = A0 then 0#8 else feedbackTimes cfg fb g

theorem addFeedback_getD {cfg : Config} {fb : Byte} {P : List Byte} {j : Nat} (hj : j + 1 < P.length) :
    (addFeedback cfg fb P).getD (j + 1) 0#8 = P.getD (j + 1) 0#8 ^^^ feedbackTerm cfg fb (cfg.nroots - (j + 1)) := by
  unfold addFeedback feedbackTerm
  split
  · simp
  · simp [List.getD_eq_getElem?_getD, List.getElem?_eq_getElem hj]

/-- The closed form of one division step, entry by entry (R94). -/
theorem rsStep_getD (cfg : Config) (P : List Byte) (d : Byte) (j : Nat) (hj : j + 1 < P.length) :
    (rsStep cfg P d).getD j 0#8 =
      P.getD (j + 1) 0#8 ^^^ feedbackTerm cfg (feedbackOf cfg P d) (cfg.nroots - (j + 1)) := by
  rw [← addFeedback_getD hj]
  have hl : j < (addFeedback cfg (feedbackOf cfg P d) P).tail.length := by simp; omega
  simp only [rsStep, List.getD_eq_getElem?_getD]
  rw [List.getElem?_append_left hl, List.getElem?_tail]

theorem rsStep_getD_last (cfg : Config) (P : List Byte) (d : Byte) :
    (rsStep cfg P d).getD (P.length - 1) 0#8 = feedbackTerm cfg (feedbackOf cfg P d) 0 := by
  have hl : (addFeedback cfg (feedbackOf cfg P d) P).tail.length = P.length - 1 := by simp
  simp only [rsStep, List.getD_eq_getElem?_getD]
  rw [List.getElem?_append_right (by omega), hl]
  simp [newLast, feedbackTerm]

/-- INDEX_OF answers the sentinel for the zero element only (R22, R24). -/
theorem indexOf_eq_A0 {cfg : Config} (h : cfg.logOk) {x : Byte} : indexOf cfg x = A0 ↔ x = 0#8 := by
  constructor
  · intro hx
    by_contra hne
    have h1 := (h.2 ⟨x.toNat, x.isLt⟩ (by simpa [← BitVec.toNat_inj] using hne)).1
    have : (indexOf cfg x).toNat ≤ 254 := h1
    rw [hx] at this
    simp at this
  · rintro rfl
    exact h.1

end Sys2Proof.Machine
end

