-- ==== Sys2Proof/Laws/Tables.lean ====
section
/-! SUPPORT. The printed tables of configuration T2: reading one entry, and the configuration's well-formedness (10_state.md
R24), checked entry by entry. -/

namespace Sys2Proof

/-- Byte `e` of sixteen printed rows. -/
def rowsByte (rows : Vector (BitVec 128) 16) (e : Nat) : Byte :=
  (rows.toList.getD (e / 16) 0#128).extractLsb' (8 * (15 - e % 16)) 8

/-- An entry of a printed table is read from its row, without building the table. -/
theorem tableOfRows_getElem (rows : Vector (BitVec 128) 16) (e : Nat) (h : e < 256) :
    (tableOfRows rows)[e] = rowsByte rows e := by
  unfold tableOfRows rowsByte
  rw [Vector.getElem_ofFn, List.getD_eq_getElem _ _ (by simp; omega)]
  simp

/-- Configuration T2 meets R24 and R6. -/
theorem Config.t2_wf : Config.t2.wf := by
  refine ⟨by decide, ⟨by decide +kernel, ?_⟩, ?_, by decide, by decide⟩
  · simp only [Config.t2, indexOfT2, alphaToT2, Fin.getElem_fin, tableOfRows_getElem]
    decide +kernel
  · simp only [Config.antilogOk, Config.t2, indexOfT2, alphaToT2, Fin.getElem_fin, tableOfRows_getElem]
    decide +kernel

end Sys2Proof
end

