-- ==== Sys2Proof/Tests/Slice0.lean ====
section
/-! SUPPORT. Tests of the model against the spec's own vectors (95_test_vectors.md), the smoke tests of WellFormed, and for
every statement with hypotheses a witness that meets them. -/

namespace Sys2Proof.Tests

open Sys2Proof Sys2Proof.Machine

/-! ### Helpers -/

/-- Whether a meaning answers a next state of which `f` holds. -/
def runs (r : Result) (f : State → Bool) : Bool :=
  match r with
  | .next t => f t
  | .fault _ => false
  | .refused _ => false

/-- The state after a command, or the state itself where it stops. -/
def after (s : State) (i : Instr) : State :=
  match exec i s with
  | .next t => t
  | .fault _ => s
  | .refused _ => s

/-- The state after a step, or the state itself where it stops. -/
def stepped (s : State) : State :=
  match step s with
  | .next t => t
  | .fault _ => s
  | .refused _ => s

theorem exec_after {s : State} {i : Instr} (h : runs (exec i s) (fun _ => true) = true) : exec i s = .next (after s i) := by
  unfold after
  rcases hr : exec i s with t | r | r <;> simp_all [runs]

theorem step_stepped {s : State} (h : runs (step s) (fun _ => true) = true) : step s = .next (stepped s) := by
  unfold stepped
  rcases hr : step s with t | r | r <;> simp_all [runs]

/-- Whether the last response of a state is the one given. -/
def lastIs (status : Status) (value : Nat) (payload : List Nat) (t : State) : Bool :=
  t.responses.getLast? == some ⟨status, BitVec.ofNat 32 value, payload.map (BitVec.ofNat 8)⟩

/-- A state with the bytes given as payload. -/
def given (s : State) (pay : List Nat) : State := s.withPayload (pay.map (BitVec.ofNat 8))

/-- A state with one command issued. -/
def issued (s : State) (w : Nat) (pay : List Nat) : State :=
  { s with pending := [.command ⟨BitVec.ofNat 32 w, pay.map (BitVec.ofNat 8)⟩] }

/-- After `SETPOLY 0x1ed, 0x19b, 0x127`; then `CREATE 12`; then `INIT 0, 0`. -/
def polySet : State := after State.reset (.setpoly 0x1ed#9 0x19b#9 0x127#9)
def created : State := after polySet (.create 12#24)
def ready : State := after created (.init 0#4 0#8)

/-- A bank with one metric in every entry. -/
def flat (m : Int) : Bank := Vector.replicate 256 (metricOf m)

/-- A READY context with `dp` steps done, LEN 20, flat metrics and the history given. -/
def readyCtx (dp : Nat) (m : Int) (hist : Memory) : Context where
  alloc := true
  inited := true
  len := 20#24
  dp := BitVec.ofNat 25 dp
  sel := 0
  met := Vector.replicate 2 (flat m)
  hist := hist

/-- The block after reset with BT_VALID set and context 0 as given. -/
def blockWith (k : Context) : State := { State.reset with btValid := true, ctxs := [k, Context.reset] }

/-! ### WellFormed: an ill-formed term for each check -/

theorem test_t2_is_well_formed : Config.t2.wf := Config.t2_wf
theorem test_nroots_zero_refused : ¬ Config.nrootsOk { Config.t2 with genpoly := [] } := by decide
theorem test_nroots_255_refused : ¬ Config.nrootsOk { Config.t2 with genpoly := List.replicate 255 0#8 } := by
  decide +kernel
theorem test_log_of_zero_not_sentinel_refused :
    ¬ Config.logOk { Config.t2 with indexOf := Config.t2.indexOf.set 0 0#8 } := by decide +kernel
theorem test_wrong_log_refused :
    ¬ Config.logOk { Config.t2 with indexOf := Config.t2.indexOf.set 3 26#8 } := by decide +kernel
theorem test_zero_antilog_refused :
    ¬ Config.antilogOk { Config.t2 with alphaTo := Config.t2.alphaTo.set 254 0#8 } :=
  fun h => (h 254 (by decide)).1 (by decide +kernel)
theorem test_genpoly_entry_255_refused : ¬ Config.genpolyOk { Config.t2 with genpoly := [255#8] } := by decide
theorem test_nctx_zero_refused : ¬ Config.nctxOk { Config.t2 with nctx := 0 } := by decide
theorem test_nctx_17_refused : ¬ Config.nctxOk { Config.t2 with nctx := 17 } := by decide

theorem test_shape_setpoly_refused : ¬ (Instr.setpoly 0#9 0#9 0#9).shapeOk Config.t2 1 := by decide
theorem test_shape_create_refused : ¬ (Instr.create 5#24).shapeOk Config.t2 1 := by decide
theorem test_shape_init_refused : ¬ (Instr.init 0#4 0#8).shapeOk Config.t2 1 := by decide
theorem test_shape_update_refused : ¬ (Instr.update 1#4 2#24).shapeOk Config.t2 5 := by decide
theorem test_shape_chainback_refused : ¬ (Instr.chainback 0#4 4#16 0#8).shapeOk Config.t2 3 := by decide
theorem test_shape_destroy_refused : ¬ (Instr.destroy 0#4).shapeOk Config.t2 1 := by decide
theorem test_shape_rs_length_refused : ¬ (Instr.rsEncode 250#8).shapeOk Config.t2 2 := by decide
theorem test_shape_rs_pad_refused : ¬ (Instr.rsEncode 254#8).shapeOk Config.t2 0 := by decide

/-! ### Decoding: words written out from the formats of R74 (operands of 95_test_vectors.md §3.12) -/

/-- OP 0001, 0, P2 = 100100111, P1 = 110011011, P0 = 111101101. -/
theorem test_decode_setpoly :
    decode 0b0001_0_100100111_110011011_111101101#32 = .ok (.setpoly 0x1ed#9 0x19b#9 0x127#9) := by decide
/-- OP 0010, 0000, LEN = 2^24 - 1. -/
theorem test_decode_create :
    decode 0b0010_0000_111111111111111111111111#32 = .ok (.create 16777215#24) := by decide
/-- OP 0011, CTX = 0001, sixteen zeros, START = 10100101. -/
theorem test_decode_init : decode 0b0011_0001_0000000000000000_10100101#32 = .ok (.init 1#4 0xa5#8) := by decide
/-- OP 0100, CTX = 0001, NSTEPS = 17. -/
theorem test_decode_update : decode 0b0100_0001_000000000000000000010001#32 = .ok (.update 1#4 17#24) := by decide
/-- OP 0101, CTX = 0001, NBITS = 8, ENDSTATE = 11010001. -/
theorem test_decode_chainback :
    decode 0b0101_0001_0000000000001000_11010001#32 = .ok (.chainback 1#4 8#16 0xd1#8) := by decide
/-- OP 0110, CTX = 1111, twenty-four zeros. -/
theorem test_decode_destroy : decode 0b0110_1111_000000000000000000000000#32 = .ok (.destroy 15#4) := by decide
/-- OP 0111, twenty zeros, PAD = 11111010. -/
theorem test_decode_rs_encode : decode 0b0111_00000000000000000000_11111010#32 = .ok (.rsEncode 250#8) := by decide

theorem test_decode_reserved_op :
    [0x0000000C#32, 0x80000000#32, 0x90000000#32, 0xF0000000#32, 0xFFFFFFFF#32].map decode =
      List.replicate 5 (.error .reservedOp) := by decide
theorem test_decode_must_be_zero :
    [0x18000000#32, 0x21000005#32, 0x30000100#32, 0x60000001#32, 0x70000100#32, 0x7000FE00#32].map decode =
      List.replicate 6 (.error .mustBeZero) := by decide
theorem test_encode_matches_R84 :
    encode (.setpoly 0x1ed#9 0x19b#9 0x127#9) = 0x149F37ED#32 ∧ encode (.chainback 1#4 9#16 0#8) = 0x51000900#32 := by
  decide
theorem test_table_word : decodeTableWord 32 0x700000FA = some (.rsEncode 250#8) := by decide

/-! ### The commands -/

/-- 95_test_vectors.md §3.1: the three branch tables. -/
theorem test_setpoly_tables :
    branchTable 0x1ed#9 0x19b#9 0x127#9 =
      #v[0xc3c33c3c3c3cc3c33c3cc3c3c3c33c3c#128, 0x5aa55aa55aa55aa5a55aa55aa55aa55a#128,
        0x99996666999966669999666699996666#128] := by decide +kernel

/-- §3.11 rows 5, 7, 8: the lowest free handle, then none free. -/
theorem test_create_lowest_then_none :
    runs (exec (.create 17#24) created) (fun t => lastIs .ok 1 [] t && runs (exec (.create 1#24) t) (lastIs .errAlloc 0 [])) =
      true := by decide +kernel
/-- R114: `CREATE 601` with HIST_DEPTH 600. -/
theorem test_create_too_long : runs (exec (.create 601#24) polySet) (lastIs .errAlloc 0 []) = true := by decide +kernel

/-- §3.8: `INIT 1, 0xa5` on an allocated context. -/
theorem test_init_metrics :
    runs (exec (.init 0#4 0xa5#8) created) (fun t =>
      match t.ctxs[0]? with
      | some k => bankAt k.oldBank 0xa5 == -32768 && bankAt k.oldBank 0xa4 == -27768 && k.dp == 0 && k.sel == 0
      | none => false) = true := by decide +kernel

/-- §3.2: branch metrics of symbols 10, 200, 128. -/
theorem test_branch_metric :
    [0, 1, 5, 127].map (fun i => branchMetric (branchTable 0x1ed#9 0x19b#9 0x127#9) #v[10#8, 200#8, 128#8] i) =
      [338, 192, 572, 572] := by decide +kernel
/-- §3.3 ACS1: the odd successor takes the upper predecessor. -/
theorem test_butterfly_acs1 : butterfly 192 (-27768) (-27768) = ⟨-27576, false, -27576, true⟩ := by decide
/-- §3.3 ACS3: a tie goes to the lower predecessor. -/
theorem test_butterfly_tie : butterfly 765 (-27768) (-27003) = ⟨-27003, false, -27768, false⟩ := by decide
/-- §3.4 step 0: the decision record, with the branch tables of §3.1. -/
theorem test_first_record :
    decisionRecord
      #v[0xc3c33c3c3c3cc3c33c3cc3c3c3c33c3c#128, 0x5aa55aa55aa55aa5a55aa55aa55aa55a#128,
        0x99996666999966669999666699996666#128] #v[0#8, 0#8, 0#8] (startBank 0#8) =
      0x59656aa99556a69aa96a65599aa656956559a96a56959aa66aa95965a69a9554#256 := by decide +kernel
/-- §3.4 step 0: the metrics, DP, SEL and the VALUE. -/
theorem test_update_first_step :
    runs (exec (.update 0#4 1#24) (given ready [0, 0, 0])) (fun t =>
      lastIs .ok 0 [] t &&
      match t.ctxs[0]? with
      | some k =>
        bankAt k.oldBank 0 == -32768 && bankAt k.oldBank 1 == -32003 && bankAt k.oldBank 2 == -27513 &&
        k.dp == 1 && k.sel == 1
      | none => false) = true := by decide +kernel
/-- §3.11 row 23: a payload of 5 bytes for 2 steps clears INITED and runs no step. -/
theorem test_update_wrong_length :
    runs (exec (.update 0#4 2#24) (given ready [0, 0, 0, 0, 0])) (fun t =>
      lastIs .errPrecond 0 [] t && t.ctxs[0]?.map (fun k => (k.alloc, k.inited, k.dp)) == some (true, false, 0)) = true := by
  decide +kernel
/-- R142: 20017 in state 0 renormalises, 20016 does not (R151 (e)). -/
theorem test_renorm_threshold : renormAdjust (flat 20016) = 0 ∧ renormAdjust (flat 20017) = 52785 := by decide +kernel

/-- §3.5: records 8 to 16 of vector V2. -/
def v2Records : Memory :=
  [(8, 0xe973205d1c26f780fb40080115fef7fbffffffffffffff57ef0bfdfefeff9bc7#256),
   (9, 0x0000000000000000008018042508004012a61280e148e17f00020000f8206bcd#256),
   (10, 0x67c9b9ff7eb1da076fa9ffffffffff7efbf76af90502f790ed02201900245690#256),
   (11, 0x097f20509fa67fbf09644200910220de70ad19efff9b9c76e7ffffffffff9af6#256),
   (12, 0x2049a9485fb4122400000820079e80f200200000000000000142200010800285#256),
   (13, 0x0285108020000142000000000000002080f2079e0820000012245fb4a9482049#256),
   (14, 0x0291de2064490042a69fbf7f7f095020fffff69affe7ffff9bff769cad70ef19#256),
   (15, 0x200001420285108000000020000000000820000080f2079ea948204912245fb4#256),
   (16, 0xa69fbf7f7f0950200291de20644900429bff769cad70ef19fffff69affe7ffff#256)]

/-- §3.5 and R170: `CHAINBACK 9, 0` answers b2 80. -/
theorem test_chainback_v2 :
    runs (exec (.chainback 0#4 9#16 0#8) (blockWith (readyCtx 17 (-32768) v2Records))) (lastIs .ok 0 [0xb2, 0x80]) = true := by
  decide +kernel
/-- §3.5: one bit more than the margin allows. -/
theorem test_chainback_margin :
    runs (exec (.chainback 0#4 10#16 0#8) (blockWith (readyCtx 17 (-32768) v2Records))) (lastIs .errPrecond 0 []) = true := by
  decide +kernel

/-- §3.11 rows 9 and 11: a valid handle is freed, an invalid one is a no-op. -/
theorem test_destroy :
    runs (exec (.destroy 0#4) ready) (fun t => lastIs .ok 0 [] t && t.ctxs[0]?.map (·.alloc) == some false) = true ∧
    runs (exec (.destroy 9#4) ready) (fun t => lastIs .ok 0 [] t && t.ctxs.map (·.alloc) == [true, false]) = true := by decide +kernel

/-- §2.2 RS2 (the trace of R98). -/
theorem test_rs2 :
    runs (exec (.rsEncode 250#8) (given State.reset [0x12, 0x34, 0x56])) (lastIs .ok 0 [0xc0, 0x58]) = true := by
  decide +kernel
/-- §2.2 RS4: the zero-feedback branch in mid-message. -/
theorem test_rs4 : runs (exec (.rsEncode 251#8) (given State.reset [1, 6])) (lastIs .ok 0 [8, 0]) = true := by decide +kernel
/-- §2.3 RS20: four parity symbols in order. -/
theorem test_rs20 :
    rsParity { Config.t2 with genpoly := [10#8, 81#8, 251#8, 76#8] } [1#8] = [0x1e#8, 0xd8#8, 0xe7#8, 0x74#8] := by
  decide +kernel
/-- §2.2 RS15: an illegal word, as a step. -/
theorem test_step_illegal : runs (step (issued State.reset 0x70000100 [])) (lastIs .errIllegal 0 []) = true := by
  decide +kernel
/-- The fetch word runs as the very next step: §3.12, `DESTROY 15` on a block with two contexts. -/
theorem test_with_fetch_word : runs (step (State.reset.withFetchWord 32 0x6F000000)) (lastIs .ok 0 []) = true := by
  decide +kernel

/-! ### Witnesses: states and operands that meet the hypotheses of each statement -/

theorem bankAt_flat {m : Int} (h1 : -32768 ≤ m) (h2 : m ≤ 32767) (p : Fin 256) : bankAt (flat m) p = m := by
  simp only [bankAt, flat, Fin.getElem_fin, Vector.getElem_replicate]
  exact toInt_metricOf h1 h2

theorem readyCtx_oldBank (dp : Nat) (m : Int) (hist : Memory) : (readyCtx dp m hist).oldBank = flat m := by
  simp [Context.oldBank, readyCtx]

/-- A READY context with flat metrics in range meets the invariant. -/
theorem readyCtx_inv {dp : Nat} {m : Int} {hist : Memory} (hd : dp ≤ 20) (h1 : -32768 ≤ m) (h2 : m ≤ 30371)
    (hw : hist.wf) (hb : ∀ e ∈ hist, e.1 < 600) : (readyCtx dp m hist).Inv Config.t2 := by
  have hm : ∀ p, bankAt (flat m) p = m := bankAt_flat h1 (by omega)
  refine ⟨fun _ => rfl, fun _ => (by decide : 20 ≤ 600), fun _ => ?_, hw, hb, fun _ => ?_⟩
  · show (BitVec.ofNat 25 dp).toNat ≤ 20
    rw [BitVec.toNat_ofNat]
    omega
  · rw [readyCtx_oldBank]
    refine ⟨⟨fun j _ p q _ => ?_, fun _ p q => ?_⟩, fun p => ?_⟩
    · rw [hm, hm, show ((BM_MAX : Nat) : Int) = 765 from rfl]
      omega
    · rw [hm, hm, show INIT_BIAS = (5000 : Int) from rfl, show ((BM_MAX : Nat) : Int) = 765 from rfl]
      omega
    · rw [hm]
      exact h2

theorem freeCtx_inv : Context.reset.Inv Config.t2 := by simp [Context.Inv, Context.reset, Memory.wf]

theorem blockWith_inv {k : Context} (h : k.Inv Config.t2) : (blockWith k).Inv := by
  refine ⟨Config.t2_wf, rfl, rfl, fun l hl => ?_⟩
  rcases List.mem_cons.mp hl with rfl | hl
  · exact h
  · rcases List.mem_cons.mp hl with rfl | hl
    · exact freeCtx_inv
    · cases hl

/-- A READY context after 8 steps with every metric 0, in a block with BT_VALID set. -/
def block : State := blockWith (readyCtx 8 0 [])

theorem block_inv : block.Inv :=
  blockWith_inv (readyCtx_inv (by decide) (by decide) (by decide) (by decide) (by simp))

theorem block_valid : block.validCtx? 0#4 = some (readyCtx 8 0 []) := rfl

/-- A command that answers a next state issues one response, so the hypotheses of the statements over `exec` are met. -/
theorem answers_one {i : Instr} {s : State} (h : runs (exec i s) (fun _ => true) = true) :
    ∃ t r, exec i s = .next t ∧ t.responses = s.responses ++ [r] := by
  obtain ⟨r, hr⟩ := exec_effect (exec_after h)
  exact ⟨_, r, exec_after h, hr.answered.2.2⟩

theorem witness_EncodeAfterDecode : decode 0x2000000C#32 = .ok (.create 12#24) := by decide

theorem witness_OperandsComeFromTheirFields :
    decode 0x17FFFFFF#32 = .ok (.setpoly 0x1ff#9 0x1ff#9 0x1ff#9) ∧ decode 0x20FFFFFF#32 = .ok (.create 16777215#24) ∧
    decode 0x3F0000FF#32 = .ok (.init 15#4 0xff#8) ∧ decode 0x4FFFFFFF#32 = .ok (.update 15#4 16777215#24) ∧
    decode 0x5FFFFFFF#32 = .ok (.chainback 15#4 65535#16 0xff#8) ∧ decode 0x6F000000#32 = .ok (.destroy 15#4) ∧
    decode 0x700000FF#32 = .ok (.rsEncode 255#8) := by decide

theorem witness_IllegalWordsAreAnsweredErrIllegal :
    (issued State.reset 0x0000000C [1]).pending = [.command ⟨0x0000000C#32, [1#8]⟩] ∧
    decode 0x0000000C#32 = .error .reservedOp ∧
    (issued State.reset 0x60000001 []).pending = [.command ⟨0x60000001#32, []⟩] ∧
    decode 0x60000001#32 = .error .mustBeZero := ⟨rfl, rfl, rfl, rfl⟩

theorem witness_StepRunsDecodedCommand :
    (issued block 0x40000001 [1, 2, 3]).pending = [.command ⟨0x40000001#32, [1#8, 2#8, 3#8]⟩] ∧
    decode 0x40000001#32 = .ok (.update 0#4 1#24) ∧ State.reset.pending = [] := ⟨rfl, rfl, rfl⟩

/-- A command that succeeds, one that fails, and an illegal word. -/
theorem witness_ExactlyOneResponsePerCommand :
    step (issued block 0x60000000 []) = .next (stepped (issued block 0x60000000 [])) ∧
    step (issued block 0x62000000 [1]) = .next (stepped (issued block 0x62000000 [1])) ∧
    step (issued block 0x00000000 []) = .next (stepped (issued block 0x00000000 [])) :=
  ⟨step_stepped (by decide +kernel), step_stepped (by decide +kernel), step_stepped (by decide +kernel)⟩

/-- A failed INIT, and the failed UPDATE that clears INITED. -/
theorem witness_FailedCommandChangesNothing :
    (step (issued block 0x31000000 []) = .next (stepped (issued block 0x31000000 [])) ∧
      (stepped (issued block 0x31000000 [])).responses = block.responses ++ [⟨.errHandle, 0#32, []⟩]) ∧
    step (issued block 0x40000001 [0]) = .next (stepped (issued block 0x40000001 [0])) ∧
      (stepped (issued block 0x40000001 [0])).responses = block.responses ++ [⟨.errPrecond, 0#32, []⟩] :=
  ⟨⟨step_stepped (by decide +kernel), by decide +kernel⟩, step_stepped (by decide +kernel), by decide +kernel⟩

theorem witness_StatusesEachCommandCanAnswer :
    runs (exec (.init 2#4 0#8) block) (lastIs .errHandle 0 []) = true ∧
    runs (exec (.create 601#24) block) (lastIs .errAlloc 0 []) = true ∧
    runs (step (issued block 0x80000000 [])) (lastIs .errIllegal 0 []) = true ∧ (254#8).toNat ≤ 254 := by decide +kernel

theorem witness_WrongPayloadLengthIsRejected :
    (¬ (Instr.setpoly 0#9 0#9 0#9).shapeOk (given block [0]).cfg (given block [0]).payLen) ∧
    (¬ (Instr.create 0#24).shapeOk (given block [0]).cfg (given block [0]).payLen) ∧
    (¬ (Instr.init 0#4 0#8).shapeOk (given block [0]).cfg (given block [0]).payLen) ∧
    (¬ (Instr.update 0#4 0#24).shapeOk (given block [0]).cfg (given block [0]).payLen) ∧
    (¬ (Instr.chainback 0#4 0#16 0#8).shapeOk (given block [0]).cfg (given block [0]).payLen) ∧
    (¬ (Instr.destroy 0#4).shapeOk (given block [0]).cfg (given block [0]).payLen) ∧
    (¬ (Instr.rsEncode 253#8).shapeOk (given block [0]).cfg (given block [0]).payLen) ∧
    (given block [0]).validCtx? 0#4 ≠ none := by
  refine ⟨by decide, by decide, by decide, by decide, by decide, by decide, by decide, ?_⟩
  show (some _ : Option Context) ≠ none
  simp

theorem witness_ResetClearsFlagsAndKeepsConfiguration :
    ({ block with pending := [.reset (some ⟨0x40000001#32, []⟩)] } : State).pending =
      .reset (some ⟨0x40000001#32, []⟩) :: [] := rfl

/-- SETPOLY changes BT, reset changes BT_VALID, RS_ENCODE changes PARITY. -/
theorem witness_WhoWritesBlockState :
    (step (issued State.reset 0x149F37ED []) = .next (stepped (issued State.reset 0x149F37ED [])) ∧
      (stepped (issued State.reset 0x149F37ED [])).btValid ≠ State.reset.btValid) ∧
    step (issued block 0x700000FC [1]) = .next (stepped (issued block 0x700000FC [1])) ∧
      (stepped (issued block 0x700000FC [1])).parity ≠ block.parity :=
  ⟨⟨step_stepped (by decide +kernel), by decide +kernel⟩, step_stepped (by decide +kernel), by decide +kernel⟩

/-- CREATE changes ALLOC and LEN, INIT changes DP and INITED, UPDATE changes DP, DESTROY changes ALLOC and INITED. -/
theorem witness_WhoWritesContextState :
    runs (exec (.create 5#24) block) (fun t =>
      (t.ctxs[1]?).map (fun k => (k.alloc, k.len)) == some (true, 5#24)) = true ∧
    runs (exec (.init 0#4 0#8) block) (fun t => (t.ctxs[0]?).map (·.dp) == some 0#25) = true ∧
    runs (exec (.update 0#4 1#24) (given block [0, 0, 0])) (fun t => (t.ctxs[0]?).map (·.dp) == some 9#25) = true ∧
    runs (exec (.destroy 0#4) block) (fun t => (t.ctxs[0]?).map (fun k => (k.alloc, k.inited)) == some (false, false)) =
      true := by decide +kernel

/-- UPDATE changes HIST: with symbols 0 and an all-zero branch table the odd successors take the upper predecessor. -/
theorem witness_WhoWritesContextState_hist :
    (vitRun block.bt (readyCtx 8 0 []) (symbolTriples [0#8, 0#8, 0#8])).1.hist ≠ (readyCtx 8 0 []).hist := by
  have hw : (vitRun block.bt (readyCtx 8 0 []) (symbolTriples [0#8, 0#8, 0#8])).1.hist =
      Memory.write [] 8 (decisionRecord block.bt #v[0#8, 0#8, 0#8] (readyCtx 8 0 []).oldBank) := by
    simp only [symbolTriples, vitRun_cons, vitRun_nil, vitStep_hist]
    rfl
  rw [hw]
  intro h
  have hr := read_write_same (m := []) (by decide) 8 (decisionRecord block.bt #v[0#8, 0#8, 0#8] (readyCtx 8 0 []).oldBank)
  rw [show Memory.write [] 8 _ = [] from h] at hr
  have hb : (decisionRecord block.bt #v[0#8, 0#8, 0#8] (readyCtx 8 0 []).oldBank).getLsbD 1 = true :=
    (getLsbD_decisionRecord block.bt #v[0#8, 0#8, 0#8] (readyCtx 8 0 []).oldBank 1).trans (by decide +kernel)
  rw [← hr, read_nil] at hb
  simp at hb

theorem witness_CommandsLeaveOtherContextsAlone :
    (∃ t r, exec (.create 5#24) block = .next t ∧ t.responses = block.responses ++ [r]) ∧
    (after block (.create 5#24)).ctxs[1]?.map (·.len) ≠ block.ctxs[1]?.map (·.len) :=
  ⟨answers_one (by decide +kernel), by decide +kernel⟩

/-- Every command completes on a well-formed block with two contexts. -/
theorem witness_LifecycleTransitions :
    block.cfg.wf ∧ 0 < block.cfg.nctx ∧ block.ctxs[0]? = some (readyCtx 8 0 []) ∧
    (∃ t r, exec (.setpoly 1#9 2#9 3#9) block = .next t ∧ t.responses = block.responses ++ [r]) ∧
    (∃ t r, exec (.create 5#24) block = .next t ∧ t.responses = block.responses ++ [r]) ∧
    (∃ t r, exec (.init 0#4 0#8) block = .next t ∧ t.responses = block.responses ++ [r]) ∧
    (∃ t r, exec (.update 0#4 0#24) block = .next t ∧ t.responses = block.responses ++ [r]) ∧
    (∃ t r, exec (.update 0#4 1#24) block = .next t ∧ t.responses = block.responses ++ [r]) ∧
    (∃ t r, exec (.chainback 0#4 0#16 0#8) block = .next t ∧ t.responses = block.responses ++ [r]) ∧
    (∃ t r, exec (.destroy 0#4) block = .next t ∧ t.responses = block.responses ++ [r]) ∧
    (∃ t r, exec (.rsEncode 253#8) block = .next t ∧ t.responses = block.responses ++ [r]) :=
  ⟨Config.t2_wf, by decide, rfl, answers_one (by decide +kernel), answers_one (by decide +kernel),
    answers_one (by decide +kernel), answers_one (by decide +kernel), answers_one (by decide +kernel),
    answers_one (by decide +kernel), answers_one (by decide +kernel), answers_one (by decide +kernel)⟩

theorem witness_InvariantHoldsAtReset : Config.t2.wf := Config.t2_wf

theorem witness_StepKeepsInvariant :
    (issued block 0x40000001 [1, 2, 3]).Inv ∧
      step (issued block 0x40000001 [1, 2, 3]) = .next (stepped (issued block 0x40000001 [1, 2, 3])) :=
  ⟨block_inv, step_stepped (by decide +kernel)⟩

theorem witness_InvariantStatesNeverStop : block.Inv := block_inv

/-- Other parity, another record at DP and other fields in the free context: the same specified values. -/
def blockAgreeing : State :=
  { block with
    parity := [1#8, 2#8]
    ctxs := [readyCtx 8 0 [(8, 1#256)], { Context.reset with len := 7#24, dp := 3#25, sel := 1 }]
    pending := (issued block 0x40000001 [1, 2, 3]).pending }

theorem witness_UnspecifiedValuesAreNeverObserved :
    (issued block 0x40000001 [1, 2, 3]).Inv ∧ blockAgreeing.Inv ∧
      (issued block 0x40000001 [1, 2, 3]).agree blockAgreeing ∧
      step (issued block 0x40000001 [1, 2, 3]) = .next (stepped (issued block 0x40000001 [1, 2, 3])) := by
  refine ⟨block_inv, ⟨Config.t2_wf, rfl, rfl, fun l hl => ?_⟩, ⟨rfl, rfl, rfl, rfl, fun _ => rfl, ?_⟩,
    step_stepped (by decide +kernel)⟩
  · rcases List.mem_cons.mp hl with rfl | hl
    · exact readyCtx_inv (by decide) (by decide) (by decide) (by decide) (by simp)
    · rcases List.mem_cons.mp hl with rfl | hl
      · simp [Context.Inv, Context.reset, Memory.wf]
      · cases hl
  · refine .cons ⟨rfl, rfl, fun _ => rfl, fun _ => ⟨rfl, rfl, rfl, fun t ht => ?_⟩⟩
      (.cons ⟨rfl, rfl, fun h => Bool.noConfusion h, fun h => Bool.noConfusion h⟩ .nil)
    show Memory.read [(8, 1#256)] t = Memory.read [] t
    rw [read_cons, if_neg (by have : t < 8 := ht; omega)]

/-- SETPOLY, CREATE and INIT from reset, as three steps of the machine: a context is initialised. -/
def started : List Input :=
  [.command ⟨0x149F37ED#32, []⟩, .command ⟨0x2000000C#32, []⟩, .command ⟨0x30000000#32, []⟩]

theorem witness_ReachableMetricsNeverOverflow :
    Config.t2.wf ∧
      ∃ s : State, Sys2Proof.core.run 3 { State.resetOf Config.t2 with pending := started } = .next s ∧
        ∃ k ∈ s.ctxs, k.inited = true := by
  have h : runs (Sys2Proof.core.run 3 { State.resetOf Config.t2 with pending := started } : Result)
      (fun s => s.ctxs.any (·.inited)) = true := by decide +kernel
  refine ⟨Config.t2_wf, ?_⟩
  rcases hr : (Sys2Proof.core.run 3 { State.resetOf Config.t2 with pending := started } : Result) with t | r | r
  · rw [hr] at h
    exact ⟨t, rfl, by simpa [runs] using h⟩
  · rw [hr] at h
    cases h
  · rw [hr] at h
    cases h

theorem witness_EnginesShareNothing :
    runs (exec (.rsEncode 252#8) (given State.reset [1])) (lastIs .ok 0 [6, 8]) = true ∧
    runs (exec (.rsEncode 252#8) (given block [1])) (lastIs .ok 0 [6, 8]) = true ∧
    (given block [1]).cfg = (given State.reset [1]).cfg ∧ (given block [1]).payIn = (given State.reset [1]).payIn ∧
    runs (exec (.destroy 0#4) block) (fun _ => true) = true :=
  ⟨by decide +kernel, by decide +kernel, rfl, rfl, by decide +kernel⟩

theorem witness_RepeatableCommandsRepeat :
    (∃ t r, exec (.chainback 0#4 0#16 0#8) block = .next t ∧ t.responses = block.responses ++ [r]) ∧
    (block.validCtx? 1#4 = none ∧ ∃ t r, exec (.destroy 1#4) block = .next t ∧ t.responses = block.responses ++ [r]) ∧
    (∃ t r, exec (.rsEncode 252#8) (given block [1]) = .next t ∧ t.responses = (given block [1]).responses ++ [r]) ∧
    (∃ t r, exec (.setpoly 1#9 2#9 3#9) block = .next t ∧ t.responses = block.responses ++ [r]) ∧
    (∃ t r, exec (.init 0#4 0#8) block = .next t ∧ t.responses = block.responses ++ [r]) :=
  ⟨answers_one (by decide +kernel), ⟨rfl, answers_one (by decide +kernel)⟩, answers_one (by decide +kernel),
    answers_one (by decide +kernel), answers_one (by decide +kernel)⟩

/-- PAD = 253 with no payload and PAD = 0 with 253 bytes; PAD = 254, and a payload one byte short. -/
theorem witness_RsEncodeCompletes :
    Config.t2.wf ∧ ((253#8).toNat ≤ NN - block.cfg.nroots ∧ block.payLen = NN - block.cfg.nroots - (253#8).toNat) ∧
    (given block (List.replicate 253 0)).payLen = NN - block.cfg.nroots - (0#8).toNat ∧
    NN - block.cfg.nroots < (254#8).toNat ∧ (given block [1, 2]).payLen ≠ NN - block.cfg.nroots - (250#8).toNat :=
  ⟨Config.t2_wf, by decide, by decide +kernel, by decide, by decide⟩

theorem witness_RsStepClosedForm : Config.t2.wf := Config.t2_wf

theorem witness_RsZeroMessageHasZeroParity :
    Config.t2.wf ∧ (250#8).toNat ≤ NN - block.cfg.nroots ∧
      (given block [0, 0, 0]).payIn = List.replicate (NN - block.cfg.nroots - (250#8).toNat) 0#8 :=
  ⟨Config.t2_wf, by decide, rfl⟩

/-- The XOR of the columns that the bits of x select. -/
def columns (c : Fin 8 → Byte) (x : Byte) : Byte :=
  (if x.getLsbD 0 then c 0 else 0#8) ^^^ (if x.getLsbD 1 then c 1 else 0#8) ^^^ (if x.getLsbD 2 then c 2 else 0#8) ^^^
  (if x.getLsbD 3 then c 3 else 0#8) ^^^ (if x.getLsbD 4 then c 4 else 0#8) ^^^ (if x.getLsbD 5 then c 5 else 0#8) ^^^
  (if x.getLsbD 6 then c 6 else 0#8) ^^^ (if x.getLsbD 7 then c 7 else 0#8)

theorem select_xor (a b : Bool) (c : Byte) :
    (if (a ^^ b) = true then c else 0#8) = (if a then c else 0#8) ^^^ (if b then c else 0#8) := by
  cases a <;> cases b <;> simp

theorem columns_xor (c : Fin 8 → Byte) (x y : Byte) : columns c (x ^^^ y) = columns c x ^^^ columns c y := by
  simp only [columns, BitVec.getLsbD_xor, select_xor]
  ac_rfl

/-- In configuration T2 the product by each coefficient is the XOR of the products of the bits. -/
theorem t2_timesDistributes : timesDistributes Config.t2 := by
  have h : ∀ g ∈ Config.t2.genpoly, ∀ x : BitVec 8,
      tableTimes Config.t2 g x = columns (fun j => tableTimes Config.t2 g (1#8 <<< j.val)) x := by
    simp only [tableTimes, alphaTo, indexOf, Config.t2, indexOfT2, alphaToT2, tableOfRows_getElem]
    decide +kernel
  intro g hg x y
  rw [h g hg, h g hg x, h g hg y, columns_xor]

theorem witness_RsParityIsLinear : Config.t2.wf ∧ timesDistributes Config.t2 ∧ [1#8, 2#8].length = [3#8, 4#8].length :=
  ⟨Config.t2_wf, t2_timesDistributes, rfl⟩

theorem witness_RsCodeWordHasZeroParity : Config.t2.wf := Config.t2_wf

theorem witness_SetpolyBuildsBranchTable : block.payLen = 0 ∧ (given block [1]).payLen ≠ 0 := by decide

/-- Polynomials 0x1ed, 0x19b and 0x127 have both end taps. -/
theorem witness_ComplementHoldsExactlyWithEndTaps :
    (0x1ed#9).getLsbD 8 = true ∧ (0x1ed#9).getLsbD 0 = true ∧ (127 : Nat) < 128 := by decide

/-- The last context is the only free one; a payload; LEN = HIST_DEPTH + 1; no context free. -/
theorem witness_CreateTakesLowestFreeContext :
    (block.payLen = 0 ∧ (600#24).toNat ≤ block.cfg.histDepth ∧ 1 < block.cfg.nctx ∧
      block.ctxs[1]? = some Context.reset ∧ Context.reset.alloc = false ∧
      ∀ j < 1, ∀ l, block.ctxs[j]? = some l → l.alloc = true) ∧
    (given block [1]).payLen ≠ 0 ∧ block.cfg.histDepth < (601#24).toNat ∧
    ∀ c < block.cfg.nctx, ∀ k, (after block (.create 1#24)).ctxs[c]? = some k → k.alloc = true := by
  refine ⟨⟨rfl, by decide, by decide, rfl, rfl, fun j hj l hl => ?_⟩, by decide, by decide, fun c hc k hk => ?_⟩
  · obtain rfl : j = 0 := by omega
    cases hl
    rfl
  · have h : c = 0 ∨ c = 1 := by
      have : block.cfg.nctx = 2 := rfl
      omega
    rcases h with rfl | rfl <;> cases hk <;> rfl

theorem witness_CreateFailsExactlyWithoutRoom :
    runs (exec (.create 601#24) block) (lastIs .errAlloc 0 []) = true ∧ block.payLen = 0 ∧
      block.cfg.histDepth < (601#24).toNat := by decide +kernel

theorem witness_InitEstablishesStartMetrics :
    (block.validCtx? 0#4 = some (readyCtx 8 0 []) ∧ block.payLen = 0) ∧ block.validCtx? 1#4 = none ∧
    block.validCtx? 2#4 = none ∧ ((given block [0]).validCtx? 0#4 = some (readyCtx 8 0 []) ∧ (given block [0]).payLen ≠ 0) :=
  ⟨⟨rfl, rfl⟩, rfl, rfl, rfl, by decide⟩

/-- Handle 2 is not below NCTX; handle 1 is free; a command that answers ERR_HANDLE. -/
theorem witness_InvalidHandleIsRejected :
    block.cfg.nctx ≤ (2#4).toNat ∧ (∀ k, block.ctxs[(1#4).toNat]? = some k → k.alloc = false) ∧ block.payLen = 0 ∧
    runs (exec (.update 1#4 0#24) block) (lastIs .errHandle 0 []) = true :=
  ⟨by decide, fun k hk => by cases hk; rfl, rfl, by decide +kernel⟩

theorem witness_DestroyFreesContext :
    block.payLen = 0 ∧ block.validCtx? 0#4 = some (readyCtx 8 0 []) ∧ block.validCtx? 15#4 = none ∧
    (given block [1]).payLen ≠ 0 := ⟨rfl, rfl, rfl, by decide⟩

/-- The butterflies in rising and in falling order. -/
theorem witness_ButterflyOrderIsNotObservable :
    (∀ i, i ∈ List.finRange 128) ∧ ∀ i, i ∈ (List.finRange 128).reverse := by simp

/-- With symbols 0 and an all-zero branch table state 0 keeps its metric: 20016 and 20017. -/
theorem witness_RenormalisationBringsMinimumToFloor :
    bankAt (newBank (Vector.replicate 3 0#128) #v[0#8, 0#8, 0#8] (readyCtx 8 20016 []).oldBank) 0 < 20017 ∧
    20017 ≤ bankAt (newBank (Vector.replicate 3 0#128) #v[0#8, 0#8, 0#8] (readyCtx 8 20017 []).oldBank) 0 := by
  decide +kernel

theorem witness_RenormalisationIsRare :
    (readyCtx 8 20017 []).Inv Config.t2 ∧ (readyCtx 8 20017 []).inited = true ∧
    20017 ≤ bankAt (newBank (Vector.replicate 3 0#128) #v[0#8, 0#8, 0#8] (readyCtx 8 20017 []).oldBank) 0 ∧
    (List.replicate 55 (#v[0#8, 0#8, 0#8] : Vector Byte 3)).length ≤ 55 :=
  ⟨readyCtx_inv (by decide) (by decide) (by decide) (by decide) (by simp), rfl, by decide +kernel, by simp⟩

theorem witness_TrellisStepEffect : (readyCtx 8 0 [(3, 1#256)]).hist.wf ∧ (readyCtx 8 0 [(3, 1#256)]).dp.toNat < 2 ^ 24 := by
  decide

/-- DP + NSTEPS = LEN and NSTEPS = 0; each of the four failing checks; an invalid handle. -/
theorem witness_UpdateCompletes :
    ((given block (List.replicate 36 7)).validCtx? 0#4 = some (readyCtx 8 0 []) ∧ (readyCtx 8 0 []).inited = true ∧
      block.btValid = true ∧ (readyCtx 8 0 []).dp.toNat + (12#24).toNat = (readyCtx 8 0 []).len.toNat ∧
      (given block (List.replicate 36 7)).payLen = 3 * (12#24).toNat ∧
      (readyCtx 8 0 []).len.toNat ≤ block.cfg.histDepth) ∧
    block.payLen = 3 * (0#24).toNat ∧
    created.validCtx? 0#4 = some (Context.reset.allocate 12#24) ∧ (Context.reset.allocate 12#24).inited = false ∧
    ({ block with btValid := false } : State).validCtx? 0#4 = some (readyCtx 8 0 []) ∧
    (readyCtx 8 0 []).len.toNat < (readyCtx 8 0 []).dp.toNat + (13#24).toNat ∧
    block.payLen ≠ 3 * (1#24).toNat ∧ block.validCtx? 1#4 = none :=
  ⟨⟨rfl, rfl, rfl, by decide, by decide, by decide⟩, by decide, rfl, rfl, rfl, by decide, by decide, rfl⟩

/-- Two UPDATEs of one step each. -/
theorem witness_UpdateMaySplitAStream :
    block.Inv ∧ (1#24).toNat + (1#24).toNat < 2 ^ 24 ∧
    (let s1 := after (block.withPayload [1#8, 2#8, 3#8]) (.update 0#4 1#24)
     exec (.update 0#4 1#24) (block.withPayload [1#8, 2#8, 3#8]) = .next s1 ∧
     s1.responses = block.responses ++ [⟨.ok, 0#32, []⟩] ∧
     ∃ s2 r, exec (.update 0#4 1#24) (s1.withPayload [4#8, 5#8, 6#8]) = .next s2 ∧
       s2.responses = s1.responses ++ [r] ∧ r.status = .ok) := by
  refine ⟨block_inv, by decide, exec_after (by decide +kernel), by decide +kernel,
    after ((after (block.withPayload [1#8, 2#8, 3#8]) (.update 0#4 1#24)).withPayload [4#8, 5#8, 6#8]) (.update 0#4 1#24),
    ⟨.ok, 0#32, []⟩, exec_after (by decide +kernel), by decide +kernel, rfl⟩

theorem witness_UpdateMetricsAreLeastPathCosts :
    (block.withPayload [1#8, 2#8, 3#8]).Inv ∧
    (block.withPayload [1#8, 2#8, 3#8]).validCtx? 0#4 = some (readyCtx 8 0 []) ∧
    exec (.update 0#4 1#24) (block.withPayload [1#8, 2#8, 3#8]) =
      .next (after (block.withPayload [1#8, 2#8, 3#8]) (.update 0#4 1#24)) ∧
    (after (block.withPayload [1#8, 2#8, 3#8]) (.update 0#4 1#24)).responses = block.responses ++ [⟨.ok, 0#32, []⟩] :=
  ⟨block_inv, rfl, exec_after (by decide +kernel), by decide +kernel⟩

/-- NBITS + 8 = DP; each of the three failing checks, NBITS + 8 = DP + 1 among them; an invalid handle. -/
theorem witness_ChainbackCompletes :
    (block.validCtx? 0#4 = some (readyCtx 8 0 []) ∧ block.payLen = 0 ∧ (readyCtx 8 0 []).inited = true ∧
      (0#16).toNat + 8 = (readyCtx 8 0 []).dp.toNat ∧ (readyCtx 8 0 []).dp.toNat ≤ block.cfg.histDepth) ∧
    (given block [1]).payLen ≠ 0 ∧ created.validCtx? 0#4 = some (Context.reset.allocate 12#24) ∧
    (Context.reset.allocate 12#24).inited = false ∧ (readyCtx 8 0 []).dp.toNat < (1#16).toNat + 8 ∧
    block.validCtx? 1#4 = none :=
  ⟨⟨rfl, rfl, rfl, by decide, by decide⟩, by decide, rfl, rfl, by decide, rfl⟩

theorem witness_WalkStateHoldsTheNextBits : (7 : Nat) < 8 ∧ 1 + 7 < 9 := by decide

/-- Histories that differ in record 7 and in record NBITS + 8 only. -/
theorem witness_ChainbackReadsOnlyItsRecords :
    ∀ r, 8 ≤ r → r < 1 + 8 → Memory.read [] r = Memory.read [(7, 1#256), (9, 1#256)] r := by
  intro r h1 h2
  obtain rfl : r = 8 := by omega
  rfl

/-- NBITS + 8 = LEN. -/
theorem witness_DecodedBitsAreThoseOfALeastCostPath :
    block.Inv ∧ block.validCtx? 0#4 = some (readyCtx 8 0 []) ∧ block.payIn = [] ∧ block.btValid = true ∧
    (12#16).toNat + 8 = (readyCtx 8 0 []).len.toNat ∧ (List.replicate 60 7#8).length = 3 * ((12#16).toNat + 8) :=
  ⟨block_inv, rfl, rfl, rfl, by decide, by decide⟩

end Sys2Proof.Tests
end

/-! The command transaction: `Effect` is exact (every effect is reached by `exec`), what a payload of the wrong length is
answered, and which commands repeat their answer (20_memory.md R55, R57). -/

namespace Sys2Proof.Machine

open Sys2Proof

/-! ### Effects and runs of a command -/

theorem checkedHandle_eq_some {i : Instr} {c : Handle} (h : checkedHandle i = some c) :
    (∃ st, i = .init c st) ∨ (∃ n, i = .update c n) ∨ ∃ n e, i = .chainback c n e := by
  cases i <;> cases h <;> simp

/-- Converse of `exec_effect`. -/
theorem Effect.exec_eq {i : Instr} {s t : State} {r : Response} (h : Effect s i t r) : exec i s = .next t := by
  cases h with
  | badHandle i h hi hv =>
    obtain ⟨st, rfl⟩ | ⟨n, rfl⟩ | ⟨n, e, rfl⟩ := checkedHandle_eq_some hi
    · simp [exec, execInit, hv]
    · simp [exec, execUpdate, hv]
    · simp [exec, execChainback, hv]
  | noRoom len hp hn =>
    rcases hn with hn | hn
    · simp [exec, execCreate, hp, hn]
    · by_cases hl : s.cfg.histDepth < len.toNat <;> simp [exec, execCreate, hp, hl, hn]
  | precond i hp =>
    cases i with
    | setpoly p0 p1 p2 => exact if_pos hp
    | create len => exact if_pos hp
    | init h st =>
      obtain ⟨hp, k, hv⟩ := hp
      simp [exec, execInit, hv, hp]
    | update h n => exact hp.elim
    | chainback h n e =>
      obtain ⟨k, hv, hr⟩ := hp
      simp [exec, execChainback, hv, hr]
    | destroy h => exact if_pos hp
    | rsEncode pad =>
      by_cases hn : NN < s.cfg.nroots + pad.toNat
      · exact if_pos hn
      · exact (if_neg hn).trans (if_pos (hp.resolve_left hn))
  | updateFailed ctx n k hv hr => simp [exec, execUpdate, hv, hr]
  | setpoly p0 p1 p2 hp => simp [exec, execSetpoly, hp]
  | create len c k hp hl hf hk => simp [exec, execCreate, createAt, hp, Nat.not_lt.mpr hl, hf, hk]
  | init ctx start k hp hv => simp [exec, execInit, hp, hv]
  | update ctx n k hv hr hh => simp [exec, execUpdate, updateRun, hv, hr, hh]
  | chainback ctx n e k hv hr hh => simp [exec, execChainback, hv, hr, hh]
  | destroyNoop ctx hp hv => simp [exec, execDestroy, hp, hv]
  | destroy ctx k hp hv => simp [exec, execDestroy, hp, hv]
  | rsEncode pad h =>
    have hn : ¬ NN < s.cfg.nroots + pad.toNat := by omega
    simp [exec, execRsEncode, hn, h]

/-- The response appended to the log is the one the effect names. -/
theorem exec_effect_of_responses {i : Instr} {s t : State} {r : Response} (h : exec i s = .next t)
    (hr : t.responses = s.responses ++ [r]) : Effect s i t r := by
  obtain ⟨r', he⟩ := exec_effect h
  obtain ⟨-, -, hr'⟩ := he.answered
  obtain rfl : r' = r := by simpa using hr'.symm.trans hr
  exact he

/-! ### A payload of the wrong length (R55) -/

/-- The payload length is the first check of a command, or the first after the handle's; UPDATE's failure is an effect of its
own, since it clears INITED (R180). -/
theorem effect_of_wrong_payload {i : Instr} {s : State} (hs : ¬ i.shapeOk s.cfg s.payLen)
    (hv : ∀ c, checkedHandle i = some c → s.validCtx? c ≠ none) : ∃ t, Effect s i t ⟨.errPrecond, 0#32, []⟩ := by
  cases i with
  | setpoly p0 p1 p2 => exact ⟨_, .precond _ hs⟩
  | create len => exact ⟨_, .precond _ hs⟩
  | init c st => exact ⟨_, .precond _ ⟨hs, Option.ne_none_iff_exists'.mp (hv c rfl)⟩⟩
  | update c n =>
    obtain ⟨k, hk⟩ := Option.ne_none_iff_exists'.mp (hv c rfl)
    have hr : s.updateReady k n = false := by
      refine Bool.eq_false_iff.mpr fun h => ?_
      obtain ⟨-, -, -, hp⟩ := updateReady_iff.mp h
      exact hs hp
    exact ⟨_, .updateFailed c n k hk hr⟩
  | chainback c n e =>
    obtain ⟨k, hk⟩ := Option.ne_none_iff_exists'.mp (hv c rfl)
    have hr : s.chainbackReady k n = false :=
      Bool.eq_false_iff.mpr fun h => hs (chainbackReady_iff.mp h).1
    exact ⟨_, .precond _ ⟨k, hk, hr⟩⟩
  | destroy c => exact ⟨_, .precond _ hs⟩
  | rsEncode pad => exact ⟨_, .precond _ (.inr hs)⟩

/-- Settles O11: every command with a payload of the wrong length, and a valid handle where one is checked first, has an
ERR_PRECOND effect. -/
theorem wrongPayloadLengthIsRejected : Obligations.WrongPayloadLengthIsRejected := by
  intro i s hs hv
  obtain ⟨t, ht⟩ := effect_of_wrong_payload hs fun c hc => hv c (checkedHandle_eq_some hc)
  exact ⟨t, ht.exec_eq, ht.answered⟩

/-! ### Repeated commands (R57) -/

theorem State.sameBlock.trans {s t u : State} (h : s.sameBlock t) (h' : t.sameBlock u) : s.sameBlock u := by
  obtain ⟨hc, hb, hv, hp, hx⟩ := h
  obtain ⟨hc', hb', hv', hp', hx'⟩ := h'
  exact ⟨hc'.trans hc, hb'.trans hb, hv'.trans hv, hp'.trans hp, hx'.trans hx⟩

theorem sameBlock_send (s : State) (r : Response) : s.sameBlock (s.send r) := ⟨rfl, rfl, rfl, rfl, rfl⟩

/-- Between a response and the same payload given again, the block is the same. -/
theorem sameBlock_send_withPayload (s : State) (r r' : Response) (pay : List Byte) :
    (s.send r).sameBlock (((s.send r).withPayload pay).send r') := ⟨rfl, rfl, rfl, rfl, rfl⟩

/-- The ERR_PRECOND causes of R178 look at the configuration, the contexts and the payload only. -/
theorem precondFails_congr {s t : State} (hc : t.cfg = s.cfg) (hx : t.ctxs = s.ctxs) (hp : t.payIn = s.payIn) (i : Instr) :
    precondFails t i ↔ precondFails s i := by
  have hl : t.payLen = s.payLen := congrArg List.length hp
  cases i <;> simp only [precondFails, State.chainbackReady, validCtx?_congr hc hx, hl, hc]

/-- INIT of a context that INIT has just started changes nothing (R116). -/
@[simp] theorem start_start (k : Context) (st : TrellisState) : (k.start st).start st = k.start st := by
  simp [Context.start]

/-- A handle stays valid when its context is replaced by an allocated one. -/
theorem validCtx?_set_same {s t : State} {h : Handle} {k l : Context} (hv : s.validCtx? h = some k) (hc : t.cfg = s.cfg)
    (hx : t.ctxs = s.ctxs.set h.toNat l) (hl : l.alloc = true) : t.validCtx? h = some l := by
  obtain ⟨hn, hk, -⟩ := validCtx?_eq_some.mp hv
  obtain ⟨hlt, -⟩ := List.getElem?_eq_some_iff.mp hk
  exact validCtx?_eq_some.mpr ⟨hc ▸ hn, by rw [hx, List.getElem?_set_self hlt], hl⟩

/-- The commands that R57 lets a host repeat in state `s`: not CREATE, not UPDATE, and DESTROY where it is a no-op. -/
def repeatable (s : State) : Instr → Prop
  | .create _ => False
  | .update _ _ => False
  | .destroy h => s.validCtx? h = none
  | .setpoly _ _ _ => True
  | .init _ _ => True
  | .chainback _ _ _ => True
  | .rsEncode _ => True

/-- R57: a repeatable command given again with the same payload answers the same and leaves the block as the first left it. -/
theorem Effect.repeats {i : Instr} {s t : State} {r : Response} (h : Effect s i t r) (hi : repeatable s i) :
    ∃ u, Effect (t.withPayload s.payIn) i u r ∧ t.sameBlock u := by
  cases h with
  | badHandle i h hh hv => exact ⟨_, .badHandle i h hh hv, sameBlock_send_withPayload ..⟩
  | precond i hp =>
    exact ⟨_, .precond i ((precondFails_congr rfl rfl rfl i).mpr hp), sameBlock_send_withPayload ..⟩
  | noRoom len hp hn => exact hi.elim
  | create len c k hp hl hf hk => exact hi.elim
  | update ctx n k hv hr hh => exact hi.elim
  | updateFailed ctx n k hv hr => exact hi.elim
  | destroy ctx k hp hv => cases hv.symm.trans hi
  | destroyNoop ctx hp hv => exact ⟨_, .destroyNoop ctx hp hv, sameBlock_send_withPayload ..⟩
  | chainback ctx n e k hv hr hh =>
    exact ⟨_, .chainback ctx n e k hv hr hh, sameBlock_send_withPayload ..⟩
  | setpoly p0 p1 p2 hp => exact ⟨_, .setpoly p0 p1 p2 hp, rfl, rfl, rfl, rfl, rfl⟩
  | rsEncode pad hp => exact ⟨_, .rsEncode pad hp, rfl, rfl, rfl, rfl, rfl⟩
  | init ctx st k hp hv =>
    obtain ⟨-, -, ha⟩ := validCtx?_eq_some.mp hv
    have hv' := validCtx?_set_same (t := ((s.setCtx ctx.toNat (k.start st)).send ⟨.ok, 0#32, []⟩).withPayload s.payIn)
      hv rfl rfl ha
    exact ⟨_, .init ctx st _ hp hv', rfl, rfl, rfl, rfl, by simp⟩

/-- `Effect.repeats` as two runs of `exec`. -/
theorem exec_repeats {i : Instr} {s t : State} {r : Response} (h : Effect s i t r) (hi : repeatable s i) :
    ∃ u, exec i (t.withPayload s.payIn) = .next u ∧ u.responses = t.responses ++ [r] ∧ t.sameBlock u := by
  obtain ⟨u, hu, hb⟩ := h.repeats hi
  obtain ⟨-, -, hr⟩ := hu.answered
  exact ⟨u, hu.exec_eq, hr, hb⟩

/-- CHAINBACK writes no state of the block (R161). -/
theorem Effect.chainback_sameBlock {h : Handle} {n : BitVec 16} {e : TrellisState} {s t : State} {r : Response}
    (he : Effect s (.chainback h n e) t r) : s.sameBlock t := by
  cases he <;> exact sameBlock_send _ _

/-- DESTROY of an invalid handle writes no state of the block (R118). -/
theorem Effect.destroy_invalid_sameBlock {h : Handle} {s t : State} {r : Response} (hv : s.validCtx? h = none)
    (he : Effect s (.destroy h) t r) : s.sameBlock t := by
  cases he with
  | destroy _ k hp hk => cases hk.symm.trans hv
  | badHandle | precond | destroyNoop => exact sameBlock_send _ _

/-- Settles O23: all five commands are repeatable, and CHAINBACK and a no-op DESTROY leave the block as it is the first time
too. -/
theorem repeatableCommandsRepeat : Obligations.RepeatableCommandsRepeat := by
  refine ⟨fun h n e s t r ht hr => ?_, fun h s t r hv ht hr => ?_, fun pad s t r ht hr => ?_,
    fun p0 p1 p2 s t ht => ?_, fun h st s t ht => ?_⟩
  · have he := exec_effect_of_responses ht hr
    obtain ⟨u, hu, hr', hb⟩ := exec_repeats he trivial
    exact ⟨u, hu, hr', he.chainback_sameBlock.trans hb⟩
  · have he := exec_effect_of_responses ht hr
    obtain ⟨u, hu, hr', hb⟩ := exec_repeats he hv
    exact ⟨u, hu, hr', (he.destroy_invalid_sameBlock hv).trans hb⟩
  · obtain ⟨u, hu, hr', -⟩ := exec_repeats (exec_effect_of_responses ht hr) trivial
    exact ⟨u, hu, hr'⟩
  · obtain ⟨r, he⟩ := exec_effect ht
    obtain ⟨u, hu, -, hb⟩ := exec_repeats he trivial
    exact ⟨u, hu, hb⟩
  · obtain ⟨r, he⟩ := exec_effect ht
    obtain ⟨u, hu, -, hb⟩ := exec_repeats he trivial
    exact ⟨u, hu, hb⟩

end Sys2Proof.Machine

/-! The opcode map: a word decodes to a command exactly when it matches that command's row, since OP tells the rows apart; a
word with a command's OP that misses the row has a must-be-zero bit set; and the one response that follows every command
(30_encoding.md R73 to R79, R84). -/

namespace Sys2Proof

/-! ### The rows of the opcode map (R76) -/

/-- The OP of a command (R76). -/
def opcode : Instr → BitVec 4
  | .setpoly _ _ _ => 1#4
  | .create _ => 2#4
  | .init _ _ => 3#4
  | .update _ _ => 4#4
  | .chainback _ _ _ => 5#4
  | .destroy _ => 6#4
  | .rsEncode _ => 7#4

/-- `w` matches the row of `i`. -/
def MatchesRow (w : Word) (i : Instr) : Prop := w &&& (opcodeRow i).2 = (opcodeRow i).1

theorem toNat_opField (w : Word) : (opField w).toNat = w.toNat / 2 ^ 28 := by
  have := w.isLt
  rw [opField, BitVec.extractLsb'_toNat, Nat.shiftRight_eq_div_pow]
  omega

theorem opField_and (v w : Word) : opField (v &&& w) = opField v &&& opField w := BitVec.extractLsb'_and

theorem opField_match (i : Instr) : opField (opcodeRow i).1 = opcode i := by
  cases i <;> simp only [opcodeRow, opcode] <;> decide

/-- Every mask holds the whole of OP. -/
theorem opField_mask (i : Instr) : opField (opcodeRow i).2 = BitVec.allOnes 4 := by
  cases i <;> simp only [opcodeRow] <;> decide

theorem MatchesRow.opField_eq {w : Word} {i : Instr} (h : MatchesRow w i) : opField w = opcode i := by
  rw [← opField_match, ← h, opField_and, opField_mask, BitVec.and_allOnes]

/-- The seven rows, mask first. -/
def maskMatchRows : List (Word × Word) :=
  [(0xF8000000#32, 0x10000000#32), (0xFF000000#32, 0x20000000#32), (0xF0FFFF00#32, 0x30000000#32),
    (0xF0000000#32, 0x40000000#32), (0xF0000000#32, 0x50000000#32), (0xF0FFFFFF#32, 0x60000000#32),
    (0xFFFFFF00#32, 0x70000000#32)]

/-- The seven rows are those of the commands. -/
theorem mem_maskMatchRows {r : Word × Word} : r ∈ maskMatchRows ↔ ∃ i, (opcodeRow i).swap = r := by
  constructor
  · intro h
    simp only [maskMatchRows, List.mem_cons, List.not_mem_nil, or_false] at h
    rcases h with rfl | rfl | rfl | rfl | rfl | rfl | rfl
    exacts [⟨.setpoly 0 0 0, rfl⟩, ⟨.create 0, rfl⟩, ⟨.init 0 0, rfl⟩, ⟨.update 0 0, rfl⟩, ⟨.chainback 0 0 0, rfl⟩,
      ⟨.destroy 0, rfl⟩, ⟨.rsEncode 0, rfl⟩]
  · rintro ⟨i, rfl⟩
    cases i <;> simp [maskMatchRows, opcodeRow]

/-- An OP from 1 to 7 is some command's. -/
theorem exists_opcode_eq {op : BitVec 4} (h0 : op ≠ 0) (h8 : op.toNat < 8) : ∃ i, opcode i = op := by
  have hrow : ∃ r ∈ maskMatchRows, opField r.2 = op := by
    revert op
    decide
  obtain ⟨r, hr, hop⟩ := hrow
  obtain ⟨i, rfl⟩ := mem_maskMatchRows.mp hr
  exact ⟨i, (opField_match i).symm.trans hop⟩

/-- No command has a reserved OP (R78). -/
theorem opcode_not_reserved (i : Instr) : ¬ (opcode i = 0 ∨ 8 ≤ (opcode i).toNat) := by
  cases i <;> simp only [opcode] <;> decide

/-! ### What a word decodes to -/

/-- The command of the row of `i`, its operands read from their fields in `w` (R74). -/
def readOperands (w : Word) : Instr → Instr
  | .setpoly _ _ _ => .setpoly (w.extractLsb' 0 9) (w.extractLsb' 9 9) (w.extractLsb' 18 9)
  | .create _ => .create (w.extractLsb' 0 24)
  | .init _ _ => .init (w.extractLsb' 24 4) (w.extractLsb' 0 8)
  | .update _ _ => .update (w.extractLsb' 24 4) (w.extractLsb' 0 24)
  | .chainback _ _ _ => .chainback (w.extractLsb' 24 4) (w.extractLsb' 8 16) (w.extractLsb' 0 8)
  | .destroy _ => .destroy (w.extractLsb' 24 4)
  | .rsEncode _ => .rsEncode (w.extractLsb' 0 8)

/-- OP alone fixes the format: the commands of one row are read alike. -/
theorem readOperands_congr (w : Word) {i j : Instr} (h : opcode i = opcode j) : readOperands w i = readOperands w j := by
  cases i <;> cases j <;> simp [opcode] at h <;> rfl

theorem opcodeRow_readOperands (w : Word) (i : Instr) : opcodeRow (readOperands w i) = opcodeRow i := by
  cases i <;> rfl

theorem opcodeRow_congr {i j : Instr} (h : opcode i = opcode j) : opcodeRow i = opcodeRow j := by
  rw [← opcodeRow_readOperands 0 i, readOperands_congr 0 h, opcodeRow_readOperands]

theorem MatchesRow.congr {w : Word} {i j : Instr} (h : MatchesRow w i) (hij : opcode i = opcode j) : MatchesRow w j := by
  rwa [MatchesRow, ← opcodeRow_congr hij]

theorem of_decode_eq_ok {w : Word} {i : Instr} (h : decode w = .ok i) : MatchesRow w i ∧ readOperands w i = i := by
  unfold decode at h
  split_ifs at h <;> cases h <;> exact ⟨beq_iff_eq.mp ‹_›, rfl⟩

theorem of_decode_eq_error {w : Word} {e : Illegal} (h : decode w = .error e) :
    (∀ i, ¬ MatchesRow w i) ∧ illegalReason w = e := by
  unfold decode at h
  split_ifs at h with h1 h2 h3 h4 h5 h6 h7
  refine ⟨fun i hi => ?_, Except.error.inj h⟩
  have hs : spells w (opcodeRow i).2 (opcodeRow i).1 = true := beq_iff_eq.mpr hi
  cases i with
  | setpoly => exact h1 hs
  | create => exact h2 hs
  | init => exact h3 hs
  | update => exact h4 hs
  | chainback => exact h5 hs
  | destroy => exact h6 hs
  | rsEncode => exact h7 hs

/-- A word that matches a row is decoded by it: a word matches rows of one OP only. -/
theorem decode_of_matchesRow {w : Word} {i : Instr} (h : MatchesRow w i) : decode w = .ok (readOperands w i) := by
  rcases hd : decode w with e | j
  · exact absurd h ((of_decode_eq_error hd).1 i)
  · obtain ⟨hj, hread⟩ := of_decode_eq_ok hd
    rw [readOperands_congr w (h.opField_eq.symm.trans hj.opField_eq), hread]

/-- The decoder's meaning on legal words (R76). -/
theorem decode_eq_ok_iff {w : Word} {i : Instr} : decode w = .ok i ↔ MatchesRow w i ∧ readOperands w i = i :=
  ⟨of_decode_eq_ok, fun ⟨h, hread⟩ => hread ▸ decode_of_matchesRow h⟩

/-- The decoder's meaning on illegal words (R77). -/
theorem decode_eq_error_iff {w : Word} {e : Illegal} :
    decode w = .error e ↔ (∀ i, ¬ MatchesRow w i) ∧ illegalReason w = e := by
  refine ⟨of_decode_eq_error, fun ⟨hno, he⟩ => ?_⟩
  rcases hd : decode w with e' | j
  · rw [← (of_decode_eq_error hd).2, he]
  · exact absurd (of_decode_eq_ok hd).1 (hno j)

/-! ### Each word matches at most one row -/

/-- Two rows that no word matches both of: both masks hold OP, and the matches differ there. -/
def RowsDiffer (r q : Word × Word) : Prop :=
  opField r.1 = BitVec.allOnes 4 ∧ opField q.1 = BitVec.allOnes 4 ∧ opField r.2 ≠ opField q.2

theorem RowsDiffer.not_both {r q : Word × Word} (h : RowsDiffer r q) (w : Word) :
    ¬ (w &&& r.1 = r.2 ∧ w &&& q.1 = q.2) := by
  obtain ⟨hr, hq, hne⟩ := h
  rintro ⟨h1, h2⟩
  rw [← h1, ← h2, opField_and, opField_and, hr, hq] at hne
  exact hne rfl

theorem maskMatchRows_pairwise : maskMatchRows.Pairwise RowsDiffer := by
  unfold RowsDiffer
  decide

/-- At most one entry of a list satisfies a predicate that no two of its entries satisfy together. -/
theorem countP_le_one {α : Type} {p : α → Bool} {l : List α} (h : l.Pairwise fun a b => ¬ (p a = true ∧ p b = true)) :
    l.countP p ≤ 1 := by
  induction h with
  | nil => simp
  | @cons a l ha hl ih =>
    by_cases hp : p a = true
    · have h0 : l.countP p = 0 := List.countP_eq_zero.mpr fun b hb hpb => ha b hb ⟨hp, hpb⟩
      rw [List.countP_cons_of_pos hp, h0]
    · rwa [List.countP_cons_of_neg hp]

theorem countP_maskMatchRows_le_one (w : Word) : maskMatchRows.countP (fun r => w &&& r.1 == r.2) ≤ 1 :=
  countP_le_one <| maskMatchRows_pairwise.imp fun h => by simpa using h.not_both w

theorem countP_maskMatchRows_eq_zero {w : Word} :
    maskMatchRows.countP (fun r => w &&& r.1 == r.2) = 0 ↔ ∀ i, ¬ MatchesRow w i := by
  rw [List.countP_eq_zero]
  constructor
  · intro h i hi
    exact h _ (mem_maskMatchRows.mpr ⟨i, rfl⟩) (beq_iff_eq.mpr hi)
  · intro h r hr hw
    obtain ⟨i, rfl⟩ := mem_maskMatchRows.mp hr
    exact h i (beq_iff_eq.mp hw)

theorem exists_decode_eq_error_iff {w : Word} : (∃ e, decode w = .error e) ↔ ∀ i, ¬ MatchesRow w i := by
  simp [decode_eq_error_iff]

/-- Settles O3: the row of each command by `decode_eq_ok_iff`, whose operands are determined by the word, and the count of
matching rows. -/
theorem wordSpellsCommandByMaskAndMatch : Obligations.WordSpellsCommandByMaskAndMatch := by
  intro w
  refine ⟨?_, ?_, ?_, ?_, ?_, ?_, ?_, countP_maskMatchRows_le_one w,
    exists_decode_eq_error_iff.trans countP_maskMatchRows_eq_zero.symm⟩ <;>
    simp [decode_eq_ok_iff, MatchesRow, opcodeRow, readOperands]

/-! ### Operands (R75) -/

theorem getLsbD_field (w : Word) (start len : Nat) :
    ∀ j < len, (w.extractLsb' start len).getLsbD j = w.getLsbD (start + j) := by
  intro j hj
  simp [hj]

theorem getLsbD_lowField (w : Word) (len : Nat) : ∀ j < len, (w.extractLsb' 0 len).getLsbD j = w.getLsbD j := by
  intro j hj
  simp [hj]

/-- Settles O4: every operand of a decoded command is the field `readOperands` takes it from. -/
theorem operandsComeFromTheirFields : Obligations.OperandsComeFromTheirFields := by
  intro w
  refine ⟨fun p0 p1 p2 h => ?_, fun len h => ?_, fun c st h => ?_, fun c n h => ?_, fun c n e h => ?_, fun c h => ?_,
    fun pad h => ?_⟩ <;> cases (of_decode_eq_ok h).2
  · exact fun j hj => ⟨getLsbD_lowField w 9 j hj, getLsbD_field w 9 9 j hj, getLsbD_field w 18 9 j hj⟩
  · exact getLsbD_lowField w 24
  · exact ⟨getLsbD_field w 24 4, getLsbD_lowField w 8⟩
  · exact ⟨getLsbD_field w 24 4, getLsbD_lowField w 24⟩
  · exact ⟨getLsbD_field w 24 4, getLsbD_field w 8 16, getLsbD_lowField w 8⟩
  · exact getLsbD_field w 24 4
  · exact getLsbD_lowField w 8

/-! ### Illegal words (R78, R79) -/

/-- The must-be-zero bits of a command's format (R79). -/
def MustBeZeroBit : Instr → Nat → Prop
  | .setpoly _ _ _, j => j = 27
  | .create _, j => 24 ≤ j ∧ j ≤ 27
  | .init _ _, j => 8 ≤ j ∧ j ≤ 23
  | .update _ _, _ => False
  | .chainback _ _ _, _ => False
  | .destroy _, j => j ≤ 23
  | .rsEncode _, j => 8 ≤ j ∧ j ≤ 27

/-- Below OP, a mask holds the must-be-zero bits and no others. -/
theorem getLsbD_mask (i : Instr) : ∀ j < 28, (opcodeRow i).2.getLsbD j = true ↔ MustBeZeroBit i j := by
  cases i <;> simp only [opcodeRow, MustBeZeroBit] <;> decide

theorem getLsbD_match (i : Instr) : ∀ j < 28, (opcodeRow i).1.getLsbD j = false := by
  cases i <;> simp only [opcodeRow] <;> decide


/-- A word is its OP and the 28 bits below. -/
theorem word_ext {v w : Word} (hop : opField v = opField w) (hlow : ∀ j < 28, v.getLsbD j = w.getLsbD j) : v = w := by
  refine BitVec.eq_of_getLsbD_eq fun j hj => ?_
  by_cases hj28 : j < 28
  · exact hlow j hj28
  · have hbit : (opField v).getLsbD (j - 28) = (opField w).getLsbD (j - 28) := by rw [hop]
    unfold opField at hbit
    rwa [getLsbD_field _ _ _ _ (by omega), getLsbD_field _ _ _ _ (by omega), Nat.add_sub_cancel' (by omega)] at hbit

/-- R79: with a command's OP, the must-be-zero bits decide. -/
theorem matchesRow_iff {w : Word} {i : Instr} :
    MatchesRow w i ↔ opField w = opcode i ∧ ∀ j < 28, MustBeZeroBit i j → w.getLsbD j = false := by
  constructor
  · refine fun h => ⟨h.opField_eq, fun j hj hz => ?_⟩
    have hbit := congrArg (fun v => BitVec.getLsbD v j) h
    simpa [getLsbD_match i j hj, (getLsbD_mask i j hj).mpr hz] using hbit
  · rintro ⟨hop, hz⟩
    refine word_ext (by rw [opField_and, opField_mask, BitVec.and_allOnes, hop, opField_match]) fun j hj => ?_
    rw [BitVec.getLsbD_and, getLsbD_match i j hj, Bool.and_eq_false_imp]
    intro hw
    by_contra hm
    rw [Bool.not_eq_false, getLsbD_mask i j hj] at hm
    simp [hz j hj hm] at hw

theorem illegalReason_eq_reservedOp {w : Word} :
    illegalReason w = .reservedOp ↔ opField w = 0 ∨ 8 ≤ (opField w).toNat := by
  unfold illegalReason
  split_ifs with h
  · exact iff_of_true rfl h
  · exact iff_of_false nofun h

theorem illegalReason_eq_mustBeZero {w : Word} :
    illegalReason w = .mustBeZero ↔ ¬ (opField w = 0 ∨ 8 ≤ (opField w).toNat) := by
  unfold illegalReason
  split_ifs with h
  · exact iff_of_false nofun (not_not.mpr h)
  · exact iff_of_true rfl h

/-- R78: a reserved OP is illegal whatever the other bits are. -/
theorem decode_eq_reservedOp_iff {w : Word} :
    decode w = .error .reservedOp ↔ opField w = 0 ∨ 8 ≤ (opField w).toNat := by
  rw [decode_eq_error_iff, illegalReason_eq_reservedOp]
  refine ⟨And.right, fun h => ⟨fun i hi => ?_, h⟩⟩
  rw [hi.opField_eq] at h
  exact opcode_not_reserved i h

/-- R79: the other illegal words have the OP of a command and a must-be-zero bit of its format set. -/
theorem decode_eq_mustBeZero_iff {w : Word} :
    decode w = .error .mustBeZero ↔
      ∃ i, opField w = opcode i ∧ ∃ j < 28, MustBeZeroBit i j ∧ w.getLsbD j = true := by
  rw [decode_eq_error_iff, illegalReason_eq_mustBeZero]
  constructor
  · rintro ⟨hno, hop⟩
    push Not at hop
    obtain ⟨i, hi⟩ := exists_opcode_eq hop.1 hop.2
    have hmiss := hno i
    rw [matchesRow_iff] at hmiss
    push Not at hmiss
    obtain ⟨j, hj, hz, hw⟩ := hmiss hi.symm
    exact ⟨i, hi.symm, j, hj, hz, by simpa using hw⟩
  · rintro ⟨i, hi, j, hj, hz, hw⟩
    refine ⟨fun i' hi' => ?_, hi ▸ opcode_not_reserved i⟩
    have hrow : MatchesRow w i := hi'.congr (hi'.opField_eq.symm.trans hi)
    simp [(matchesRow_iff.mp hrow).2 j hj hz] at hw

/-- OP as a number, for each command. -/
theorem opField_eq_opcode_iff {w : Word} {i : Instr} : opField w = opcode i ↔ w.toNat / 2 ^ 28 = (opcode i).toNat := by
  rw [← BitVec.toNat_inj, toNat_opField]

/-- R79, format by format; UPDATE and CHAINBACK have no must-be-zero bit. -/
theorem exists_mustBeZeroBit_iff {w : Word} :
    (∃ i, opField w = opcode i ∧ ∃ j < 28, MustBeZeroBit i j ∧ w.getLsbD j = true) ↔
      (w.toNat / 2 ^ 28 = 1 ∧ w.getLsbD 27 = true) ∨
      (w.toNat / 2 ^ 28 = 2 ∧ ∃ j, 24 ≤ j ∧ j ≤ 27 ∧ w.getLsbD j = true) ∨
      (w.toNat / 2 ^ 28 = 3 ∧ ∃ j, 8 ≤ j ∧ j ≤ 23 ∧ w.getLsbD j = true) ∨
      (w.toNat / 2 ^ 28 = 6 ∧ ∃ j, j ≤ 23 ∧ w.getLsbD j = true) ∨
      (w.toNat / 2 ^ 28 = 7 ∧ ∃ j, 8 ≤ j ∧ j ≤ 27 ∧ w.getLsbD j = true) := by
  simp only [opField_eq_opcode_iff]
  constructor
  · rintro ⟨i, hop, j, -, hz, hw⟩
    cases i with
    | setpoly => exact .inl ⟨hop, hz ▸ hw⟩
    | create => exact .inr (.inl ⟨hop, j, hz.1, hz.2, hw⟩)
    | init => exact .inr (.inr (.inl ⟨hop, j, hz.1, hz.2, hw⟩))
    | update => exact hz.elim
    | chainback => exact hz.elim
    | destroy => exact .inr (.inr (.inr (.inl ⟨hop, j, hz, hw⟩)))
    | rsEncode => exact .inr (.inr (.inr (.inr ⟨hop, j, hz.1, hz.2, hw⟩)))
  · rintro (⟨hop, hw⟩ | ⟨hop, j, hlo, hhi, hw⟩ | ⟨hop, j, hlo, hhi, hw⟩ | ⟨hop, j, hhi, hw⟩ | ⟨hop, j, hlo, hhi, hw⟩)
    · exact ⟨.setpoly 0 0 0, hop, 27, by omega, rfl, hw⟩
    · exact ⟨.create 0, hop, j, by omega, ⟨hlo, hhi⟩, hw⟩
    · exact ⟨.init 0 0, hop, j, by omega, ⟨hlo, hhi⟩, hw⟩
    · exact ⟨.destroy 0, hop, j, by omega, hhi, hw⟩
    · exact ⟨.rsEncode 0, hop, j, by omega, ⟨hlo, hhi⟩, hw⟩

/-- Settles O6, by evaluating the decoder on each word. -/
theorem workedEncodingsDecode : Obligations.WorkedEncodingsDecode := by
  unfold Obligations.WorkedEncodingsDecode
  decide

end Sys2Proof

namespace Sys2Proof.Machine

open Sys2Proof

/-! ### The response to a command (R73, R78, R179) -/

/-- A step on an illegal word takes the command off the channel and answers it. -/
theorem step_illegal {s : State} {c : Command} {rest : List Input} {e : Illegal} (h : s.pending = .command c :: rest)
    (he : decode c.word = .error e) : step s = .next ((s.accept c rest).send ⟨.errIllegal, 0#32, []⟩) := by
  simp [step, h, he]

/-- Taking a command off the channel and responding touches the channel only. -/
theorem sameBlock_accept_send (s : State) (c : Command) (rest : List Input) (r : Response) :
    s.sameBlock ((s.accept c rest).send r) := ⟨rfl, rfl, rfl, rfl, rfl⟩

/-- Settles O5: the reserved OPs, the must-be-zero bits, and the answer to either. -/
theorem illegalWordsAreAnsweredErrIllegal : Obligations.IllegalWordsAreAnsweredErrIllegal := by
  refine ⟨fun w => ⟨?_, decode_eq_mustBeZero_iff.trans exists_mustBeZeroBit_iff⟩, fun s c rest e hp he => ?_⟩
  · rw [decode_eq_reservedOp_iff, ← BitVec.toNat_inj, toNat_opField]
    rfl
  · exact ⟨_, step_illegal hp he, sameBlock_accept_send s c rest _, rfl, rfl, rfl⟩

/-- A response that is not OK carries no data (R73). -/
theorem Effect.no_data_of_error {i : Instr} {s t : State} {r : Response} (h : Effect s i t r) (hr : r.status ≠ .ok) :
    r.value = 0#32 ∧ r.payload = [] := by
  cases h with
  | badHandle | noRoom | precond | updateFailed => exact ⟨rfl, rfl⟩
  | setpoly | create | init | update | chainback | destroyNoop | destroy | rsEncode => exact absurd rfl hr

/-- Settles O8: an illegal word has its one response, a legal one that of its effect. -/
theorem exactlyOneResponsePerCommand : Obligations.ExactlyOneResponsePerCommand := by
  intro s t c rest hp ht
  obtain ⟨e, -, rfl⟩ | ⟨i, r, -, he⟩ := step_command hp ht
  · exact ⟨⟨.errIllegal, 0#32, []⟩, rfl, rfl, rfl, fun _ => ⟨rfl, rfl⟩⟩
  · obtain ⟨hpay, hpend, hresp⟩ := he.answered
    exact ⟨r, hresp, hpend, hpay, he.no_data_of_error⟩

end Sys2Proof.Machine

/-! The Reed-Solomon engine: when RS_ENCODE accepts its PAD and payload, and one division step written with the tables of the
configuration (40_rs_encoder.md R91 to R95). -/

namespace Sys2Proof.Machine

open Sys2Proof

/-! ### The checks of RS_ENCODE (R92, R93) -/

/-- PAD and the payload length, checked one after the other, are right exactly when the block is filled. -/
theorem rsEncode_checks_iff {cfg : Config} (hn : cfg.nroots ≤ 254) {pad len : Nat} :
    pad ≤ NN - cfg.nroots ∧ len = NN - cfg.nroots - pad ↔ len + cfg.nroots + pad = NN := by
  have hNN : NN = 255 := rfl
  omega

/-- Settles O24: PAD and length fill the block exactly when RS_ENCODE's own effect applies; otherwise its ERR_PRECOND effect
does. -/
theorem rsEncodeCompletes : Obligations.RsEncodeCompletes := by
  intro pad s hwf
  have hfill := rsEncode_checks_iff hwf.1.2 (pad := pad.toNat) (len := s.payLen)
  constructor
  · intro hpad hlen
    have he := Effect.rsEncode pad (hfill.mp ⟨hpad, hlen⟩)
    exact ⟨_, he.exec_eq, he.cfg_eq, ⟨rfl, rfl, rfl⟩, rfl, he.answered⟩
  · intro hbad
    have hmiss : s.payLen + s.cfg.nroots + pad.toNat ≠ NN := mt hfill.mpr (by omega)
    have he : Effect s (.rsEncode pad) _ _ := .precond _ (.inr hmiss)
    exact ⟨_, he.exec_eq, sameBlock_send s _, he.answered⟩

/-! ### One division step in terms of the tables (R94) -/

/-- FEEDBACK is the table entry INDEX_OF[d XOR PARITY[0]] (2a). -/
theorem feedbackOf_eq_getElem (cfg : Config) (P : List Byte) (d : Byte) :
    feedbackOf cfg P d = cfg.indexOf[(d ^^^ P.getD 0 0#8).toNat]'(BitVec.isLt _) := by
  cases P <;> rfl

/-- The product by coefficient `g` as an entry of ALPHA_TO, the default of `getD` never being read. -/
theorem feedbackTerm_eq_getD (cfg : Config) (fb : Byte) (g : Nat) :
    feedbackTerm cfg fb g =
      if fb.toNat = 255 then 0#8
      else cfg.alphaTo.toList.getD ((fb.toNat + (cfg.genpoly.getD g 0#8).toNat) % 255) 0#8 := by
  have hA0 : fb = A0 ↔ fb.toNat = 255 := BitVec.toNat_inj.symm
  have hidx (v : Nat) : v % 255 < cfg.alphaTo.toList.length := by
    rw [Vector.length_toList]
    omega
  simp only [feedbackTerm, hA0]
  rw [List.getD_eq_getElem _ _ (hidx _)]
  rfl

/-- Settles O25: the fold takes one more `rsStep`, whose entries `rsStep_getD` and `rsStep_getD_last` give. -/
theorem rsStepClosedForm : Obligations.RsStepClosedForm := by
  intro cfg hwf
  refine ⟨rsParity_nil cfg, fun data d => ?_⟩
  have hlen := rsParity_length hwf.1.1 data
  simp only [← feedbackOf_eq_getElem, ← feedbackTerm_eq_getD]
  refine ⟨rsParity_length hwf.1.1 _, fun j hj hjn => ?_, ?_⟩
  · have hstep := rsStep_getD cfg (rsParity cfg data) d (j - 1) (by omega)
    rwa [Nat.sub_add_cancel hj, ← rsParity_concat] at hstep
  · rw [rsParity_concat, ← hlen]
    exact rsStep_getD_last cfg _ d

end Sys2Proof.Machine

/-! The life of a context: what SETPOLY, CREATE, INIT and DESTROY do, invalid handles, and the table of the lifecycle
(41_viterbi_lifecycle.md R110 to R119). -/

namespace Sys2Proof.Machine

open Sys2Proof

/-! ### The branch table and the end taps (R111, R119) -/

theorem odd_add_bit (m : Nat) (b : Bool) : ((m + if b then 1 else 0) % 2 == 1) = (b ^^ (m % 2 == 1)) := by
  cases b
  · simp
  · rcases Nat.mod_two_eq_zero_or_one m with h | h <;> simp [Nat.add_mod, h]

theorem parity1_cons {n : Nat} (b : Bool) (v : BitVec n) : parity1 (BitVec.cons b v) = (b ^^ parity1 v) := by
  have hlow : (List.range n).countP (fun j => (BitVec.cons b v).getLsbD j) = (List.range n).countP (fun j => v.getLsbD j) :=
    List.countP_congr fun j hj => by rw [BitVec.getLsbD_cons, if_neg (List.mem_range.mp hj).ne]
  rw [parity1, List.range_succ, List.countP_append, List.countP_singleton, hlow, odd_add_bit, BitVec.getLsbD_cons,
    if_pos rfl, parity1]

theorem parity1_concat {n : Nat} (v : BitVec n) (b : Bool) : parity1 (v.concat b) = (parity1 v ^^ b) := by
  have hhigh : (fun j => (v.concat b).getLsbD j) ∘ Nat.succ = fun j => v.getLsbD j := by
    funext j
    simp
  rw [parity1, List.range_succ_eq_map, List.countP_cons, List.countP_map, hhigh, odd_add_bit, BitVec.getLsbD_concat,
    if_pos rfl, Bool.xor_comm, parity1]

/-- A nine-bit shift register: the bit that leaves, the seven bits of a butterfly, the newest input bit. -/
def registerOf (oldest : Bool) (mid : BitVec 7) (newest : Bool) : BitVec 9 := BitVec.cons oldest (mid.concat newest)

/-- The register of butterfly `i`'s transition from its lower or upper predecessor on either input bit, as a number. -/
theorem ofNat_eq_registerOf (oldest newest : Bool) {i : Nat} (hi : i < 128) :
    BitVec.ofNat 9 (256 * oldest.toNat + 2 * i + newest.toNat) = registerOf oldest (BitVec.ofNat 7 i) newest := by
  apply BitVec.eq_of_toNat_eq
  have hold := oldest.toNat_lt
  have hnew := newest.toNat_lt
  rw [registerOf, BitVec.toNat_cons', BitVec.toNat_concat, BitVec.toNat_ofNat, BitVec.toNat_ofNat, Nat.shiftLeft_eq]
  omega

theorem poly_eq_registerOf (p : Poly) : p = registerOf (p.getLsbD 8) (p.extractLsb' 1 7) (p.getLsbD 0) := by
  refine BitVec.eq_of_getLsbD_eq fun j hj => ?_
  simp only [registerOf, BitVec.getLsbD_cons, BitVec.getLsbD_concat, BitVec.getLsbD_extractLsb']
  interval_cases j <;> simp

/-- An end bit of the register counts exactly where the polynomial has that end tap. -/
theorem parity1_registerOf_and (oldest newest : Bool) (mid : BitVec 7) (p : Poly) :
    parity1 (registerOf oldest mid newest &&& p) =
      ((oldest && p.getLsbD 8) ^^ (parity1 (mid &&& p.extractLsb' 1 7) ^^ (newest && p.getLsbD 0))) := by
  conv_lhs => rw [poly_eq_registerOf p]
  rw [registerOf, registerOf, BitVec.cons_and_cons, BitVec.concat_and_concat, parity1_cons, parity1_concat]

theorem getLsbD_branchRow (p : Poly) {i : Nat} (hi : i < 128) :
    (branchRow p).getLsbD i = parity1 (BitVec.ofNat 9 (2 * i) &&& p) := by
  rw [branchRow, BitVec.getLsbD_ofFnLE, dif_pos hi]

/-- BT depends on the inner taps alone: both end bits of the register 2 i are 0 (R111). -/
theorem getLsbD_branchRow_eq_inner (p : Poly) {i : Nat} (hi : i < 128) :
    (branchRow p).getLsbD i = parity1 (BitVec.ofNat 7 i &&& p.extractLsb' 1 7) := by
  have hreg : BitVec.ofNat 9 (2 * i) = registerOf false (BitVec.ofNat 7 i) false := by
    simpa using ofNat_eq_registerOf false false hi
  rw [getLsbD_branchRow p hi, hreg, parity1_registerOf_and]
  simp

/-- From state i + 128 on input 0 the output bit is the complement of BT[k][i] exactly with the top tap. -/
theorem parity1_high_even_eq_not_iff (p : Poly) {i : Nat} (hi : i < 128) :
    parity1 (BitVec.ofNat 9 (2 * (i + 128)) &&& p) = (!(branchRow p).getLsbD i) ↔ p.getLsbD 8 = true := by
  have hreg : BitVec.ofNat 9 (2 * (i + 128)) = registerOf true (BitVec.ofNat 7 i) false := by
    rw [← ofNat_eq_registerOf true false hi, Bool.toNat_true, Bool.toNat_false]
    congr 1
    omega
  rw [hreg, parity1_registerOf_and, getLsbD_branchRow_eq_inner p hi, Bool.true_and, Bool.false_and, Bool.xor_false,
    ← Bool.true_xor, Bool.xor_left_inj]

/-- From state i on input 1 the output bit is the complement of BT[k][i] exactly with the bottom tap. -/
theorem parity1_low_odd_eq_not_iff (p : Poly) {i : Nat} (hi : i < 128) :
    parity1 (BitVec.ofNat 9 (2 * i + 1) &&& p) = (!(branchRow p).getLsbD i) ↔ p.getLsbD 0 = true := by
  have hreg : BitVec.ofNat 9 (2 * i + 1) = registerOf false (BitVec.ofNat 7 i) true := by
    simpa using ofNat_eq_registerOf false true hi
  rw [hreg, parity1_registerOf_and, getLsbD_branchRow_eq_inner p hi, Bool.true_and, Bool.false_and, Bool.false_xor,
    ← Bool.xor_true, Bool.xor_right_inj]

/-- Settles O30: each of the two transitions gives the complement exactly when its end tap is set, in every butterfly alike. -/
theorem complementHoldsExactlyWithEndTaps : Obligations.ComplementHoldsExactlyWithEndTaps := by
  refine ⟨fun p => ⟨fun h => ?_, fun ⟨htop, hbottom⟩ i hi => ?_⟩, fun p i hi => getLsbD_branchRow_eq_inner p hi⟩
  · obtain ⟨hhigh, hlow⟩ := h 0 (by decide)
    exact ⟨(parity1_high_even_eq_not_iff p (by decide)).mp hhigh, (parity1_low_odd_eq_not_iff p (by decide)).mp hlow⟩
  · exact ⟨(parity1_high_even_eq_not_iff p hi).mpr htop, (parity1_low_odd_eq_not_iff p hi).mpr hbottom⟩

/-- Settles O29: with no payload SETPOLY's own effect applies, whose rows `getLsbD_branchRow` reads; with one its ERR_PRECOND
effect does. -/
theorem setpolyBuildsBranchTable : Obligations.SetpolyBuildsBranchTable := by
  refine fun p0 p1 p2 s => ⟨fun hp => ?_, fun hp => ?_⟩
  · have he := Effect.setpoly p0 p1 p2 hp
    refine ⟨_, he.exec_eq, he.answered, fun i hi => ?_, rfl, rfl, rfl, rfl⟩
    exact ⟨getLsbD_branchRow p0 hi, getLsbD_branchRow p1 hi, getLsbD_branchRow p2 hi⟩
  · have he : Effect s (.setpoly p0 p1 p2) _ _ := .precond _ hp
    exact ⟨_, he.exec_eq, sameBlock_send s _, he.answered⟩

/-! ### Replacing one context (R30) -/

/-- A context after one of them was replaced. -/
theorem getElem?_set_cases {xs : List Context} {n c : Nat} {k l m : Context} (hk : xs[c]? = some k)
    (hl : (xs.set n m)[c]? = some l) : (n = c ∧ l = m) ∨ (n ≠ c ∧ l = k) := by
  by_cases h : n = c
  · subst h
    rw [List.getElem?_set_self (List.getElem?_eq_some_iff.mp hk).1] at hl
    exact .inl ⟨rfl, Option.some.inj hl.symm⟩
  · rw [List.getElem?_set_ne h, hk] at hl
    exact .inr ⟨h, Option.some.inj hl.symm⟩

@[simp] theorem start_met_zero (k : Context) (st : TrellisState) : (k.start st).met[0] = startBank st := by
  simp [Context.start]

@[simp] theorem start_met_one (k : Context) (st : TrellisState) : (k.start st).met[1] = k.met[1] := by
  simp [Context.start]

/-- The context a valid handle names is there to be replaced. -/
theorem getElem?_set_of_validCtx? {s : State} {h : Handle} {k : Context} (hv : s.validCtx? h = some k) (l : Context) :
    (s.ctxs.set h.toNat l)[h.toNat]? = some l := by
  obtain ⟨-, hk, -⟩ := validCtx?_eq_some.mp hv
  exact List.getElem?_set_self (List.getElem?_eq_some_iff.mp hk).1

/-! ### CREATE, INIT and DESTROY (R114 to R118) -/

/-- Settles O31: the hypotheses of success say that `freeCtx?` finds `c`, those of failure that it finds nothing. -/
theorem createTakesLowestFreeContext : Obligations.CreateTakesLowestFreeContext := by
  refine fun len s => ⟨fun c k hp hlen hc hk ha hlow => ?_, fun hp => ?_, fun hp hroom => ?_⟩
  · have he := Effect.create len c k hp hlen (freeCtx?_eq_some.mpr ⟨hc, ⟨k, hk, ha⟩, hlow⟩) hk
    have hself := List.getElem?_set_self (a := k.allocate len) (List.getElem?_eq_some_iff.mp hk).1
    exact ⟨_, he.exec_eq, he.answered, ⟨_, hself, rfl, rfl, rfl⟩, List.length_set,
      fun j hj => List.getElem?_set_ne hj.symm, rfl, rfl, rfl, rfl⟩
  · have he : Effect s (.create len) _ _ := .precond _ hp
    exact ⟨_, he.exec_eq, sameBlock_send s _, he.answered⟩
  · have he := Effect.noRoom len hp (hroom.imp_right freeCtx?_eq_none.mpr)
    exact ⟨_, he.exec_eq, sameBlock_send s _, he.answered⟩

/-- Settles O33: INIT's own effect on a valid handle without payload, and its two failures. -/
theorem initEstablishesStartMetrics : Obligations.InitEstablishesStartMetrics := by
  refine fun h st s => ⟨fun k hv hp => ?_, fun hv => ?_, fun hv hp => ?_⟩
  · have he := Effect.init h st k hp hv
    obtain ⟨-, -, ha⟩ := validCtx?_eq_some.mp hv
    have hbank (p : Fin 256) : bankAt (k.start st).met[0] p = if p.val = st.toNat then -32768 else -27768 := by
      rw [start_met_zero, bankAt_startBank]
    exact ⟨_, k.start st, he.exec_eq, he.answered, getElem?_set_of_validCtx? hv _, rfl, rfl, rfl, ha, rfl, hbank,
      start_met_one k st, fun _ => rfl, List.length_set, fun j hj => List.getElem?_set_ne hj.symm, rfl, rfl, rfl, rfl⟩
  · have he : Effect s (.init h st) _ _ := .badHandle _ h rfl hv
    exact ⟨_, he.exec_eq, sameBlock_send s _, he.answered⟩
  · have he : Effect s (.init h st) _ _ := .precond _ ⟨hp, Option.ne_none_iff_exists'.mp hv⟩
    exact ⟨_, he.exec_eq, sameBlock_send s _, he.answered⟩

/-- Settles O35: DESTROY's two effects without payload, by the validity of the handle, and its ERR_PRECOND. -/
theorem destroyFreesContext : Obligations.DestroyFreesContext := by
  refine fun h s => ⟨fun hp => ?_, fun hp => ?_⟩
  · rcases hv : s.validCtx? h with _ | k
    · have he := Effect.destroyNoop h hp hv
      exact ⟨_, he.exec_eq, he.answered, fun _ => rfl, nofun, rfl, fun _ _ => rfl, rfl, rfl, rfl, rfl⟩
    · have he := Effect.destroy h k hp hv
      exact ⟨_, he.exec_eq, he.answered, nofun, fun _ _ => ⟨k.release, getElem?_set_of_validCtx? hv _, rfl, rfl⟩,
        List.length_set, fun j hj => List.getElem?_set_ne hj.symm, rfl, rfl, rfl, rfl⟩
  · have he : Effect s (.destroy h) _ _ := .precond _ hp
    exact ⟨_, he.exec_eq, sameBlock_send s _, he.answered⟩

/-! ### Invalid handles (R112, R176) -/

theorem checkedHandle_of_names {i : Instr} {h : Handle}
    (hi : (∃ st, i = .init h st) ∨ (∃ n, i = .update h n) ∨ ∃ n e, i = .chainback h n e) : checkedHandle i = some h := by
  obtain ⟨st, rfl⟩ | ⟨n, rfl⟩ | ⟨n, e, rfl⟩ := hi <;> rfl

/-- ERR_HANDLE has one cause: the handle a command checks is invalid. -/
theorem Effect.of_errHandle {i : Instr} {s t : State} {r : Response} (he : Effect s i t r) (hr : r.status = .errHandle) :
    ∃ h, checkedHandle i = some h ∧ s.validCtx? h = none := by
  cases he with
  | badHandle i h hi hv => exact ⟨h, hi, hv⟩
  | noRoom | precond | updateFailed | setpoly | create | init | update | chainback | destroyNoop | destroy | rsEncode =>
    cases hr

/-- Settles O34: an invalid handle gives the `badHandle` effect, or a no-op DESTROY; conversely by `Effect.of_errHandle`. -/
theorem invalidHandleIsRejected : Obligations.InvalidHandleIsRejected := by
  refine ⟨fun h s hbad => ⟨fun i hi => ?_, fun hp => ?_⟩, fun i s t r ht hresp hr => ?_⟩
  · have he := Effect.badHandle i h (checkedHandle_of_names hi) (validCtx?_eq_none.mpr hbad)
    exact ⟨_, he.exec_eq, sameBlock_send s _, he.answered⟩
  · have he := Effect.destroyNoop h hp (validCtx?_eq_none.mpr hbad)
    exact ⟨_, he.exec_eq, sameBlock_send s _, he.answered⟩
  · obtain ⟨h, hi, hv⟩ := (exec_effect_of_responses ht hresp).of_errHandle hr
    refine ⟨h, checkedHandle_eq_some hi, fun ⟨k, hvalid⟩ => ?_⟩
    cases hv.symm.trans (validCtx?_eq_some.mpr hvalid)

/-! ### The lifecycle of a context (R113) -/

/-- A command has one effect. -/
theorem Effect.unique {i : Instr} {s t u : State} {r q : Response} (h : Effect s i t r) (h' : Effect s i u q) :
    t = u ∧ r = q := by
  obtain rfl : t = u := Host.Outcome.next.inj (h.exec_eq.symm.trans h'.exec_eq)
  obtain ⟨-, -, hr⟩ := h.answered
  obtain ⟨-, -, hq⟩ := h'.answered
  exact ⟨rfl, by simpa using hr.symm.trans hq⟩

/-- A run advances DP by its steps (R141). -/
theorem vitRun_dp (bt : Vector BranchRow 3) (k : Context) (syms : List (Vector Byte 3)) :
    (vitRun bt k syms).1.dp = k.dp + BitVec.ofNat 25 syms.length := by
  induction syms generalizing k with
  | nil => simp
  | cons sym syms ih =>
    rw [vitRun_cons, ih, vitStep_dp, List.length_cons, Nat.add_comm, BitVec.ofNat_add, BitVec.add_assoc]

/-- An UPDATE whose checks hold advances DP without wrapping: DP + NSTEPS is at most LEN (R141; log 17). -/
theorem vitRun_dp_toNat {s : State} {k : Context} {n : BitVec 24} (hr : s.updateReady k n = true) :
    (vitRun s.bt k (symbolTriples s.payIn)).1.dp.toNat = k.dp.toNat + n.toNat := by
  obtain ⟨-, -, hroom, hpay⟩ := updateReady_iff.mp hr
  have hlen := k.len.isLt
  rw [vitRun_dp, symbolTriples_length hpay, BitVec.toNat_add, BitVec.toNat_ofNat]
  omega

section Lifecycle

variable {s t : State} {r : Response} {i : Instr} {h : Handle} {c : Nat} {k l : Context}

/-- FREE: a command that checks its handle answers ERR_HANDLE. -/
theorem Effect.status_of_free (he : Effect s i t r) (hi : checkedHandle i = some h) (hk : s.ctxs[c]? = some k)
    (hc : h.toNat = c) (ha : k.alloc = false) : r.status = .errHandle := by
  have hv : s.validCtx? h = none := validCtx?_eq_none.mpr <| .inr fun k' hk' => by
    cases hk.symm.trans (hc ▸ hk')
    exact ha
  obtain ⟨-, rfl⟩ := he.unique (.badHandle i h hi hv)
  rfl

theorem Effect.update_status_of_not_inited {n : BitVec 24} (he : Effect s (.update h n) t r)
    (hv : s.validCtx? h = some k) (hi : k.inited = false) : r.status = .errPrecond := by
  obtain ⟨-, rfl⟩ := he.unique (.updateFailed h n k hv (by simp [State.updateReady, hi]))
  rfl

theorem Effect.chainback_status_of_not_inited {n : BitVec 16} {e : TrellisState} (he : Effect s (.chainback h n e) t r)
    (hv : s.validCtx? h = some k) (hi : k.inited = false) : r.status = .errPrecond := by
  obtain ⟨-, rfl⟩ := he.unique (.precond _ ⟨k, hv, by simp [State.chainbackReady, hi]⟩)
  rfl

theorem eq_of_sameBlock (hb : s.sameBlock t) (hk : s.ctxs[c]? = some k) (hl : t.ctxs[c]? = some l) : l = k := by
  obtain ⟨-, -, -, -, hx⟩ := hb
  exact Option.some.inj (hl.symm.trans (hx ▸ hk))

/-- The context named by a valid handle, replaced by `m`: what becomes of each context. -/
theorem getElem?_set_validCtx? {k' m : Context} (hv : s.validCtx? h = some k') (hk : s.ctxs[c]? = some k)
    (hl : (s.ctxs.set h.toNat m)[c]? = some l) : (h.toNat = c ∧ k = k' ∧ l = m) ∨ (h.toNat ≠ c ∧ l = k) := by
  obtain ⟨-, hk', -⟩ := validCtx?_eq_some.mp hv
  rcases getElem?_set_cases hk hl with ⟨hc, hm⟩ | hother
  · exact .inl ⟨hc, Option.some.inj (hk.symm.trans (hc ▸ hk')), hm⟩
  · exact .inr hother

theorem Effect.setpoly_ctxs {p0 p1 p2 : Poly} (he : Effect s (.setpoly p0 p1 p2) t r) : t.ctxs = s.ctxs := by
  cases he <;> rfl

theorem Effect.rsEncode_ctxs {pad : Byte} (he : Effect s (.rsEncode pad) t r) : t.ctxs = s.ctxs := by
  cases he <;> rfl

/-- The rows of CREATE: FREE to ALLOCATED for the context answered. -/
theorem Effect.create_transition {len : BitVec 24} (he : Effect s (.create len) t r) (hn : s.cfg.nctx ≤ 16)
    (hc : c < s.cfg.nctx) (hk : s.ctxs[c]? = some k) (hl : t.ctxs[c]? = some l) :
    if r.status = .ok ∧ r.value = BitVec.ofNat 32 c then k.alloc = false ∧ l.alloc = true ∧ l.inited = false
    else l.alloc = k.alloc ∧ l.inited = k.inited := by
  cases he with
  | badHandle _ _ hi => cases hi
  | noRoom | precond =>
    cases hk.symm.trans hl
    exact (if_neg (by simp)).mpr ⟨rfl, rfl⟩
  | create _ c' m _ _ hf hm =>
    obtain ⟨hc', ⟨m', hm', ha⟩, -⟩ := freeCtx?_eq_some.mp hf
    rcases getElem?_set_cases hk hl with ⟨rfl, rfl⟩ | ⟨hne, rfl⟩
    · cases hk.symm.trans hm'
      rw [if_pos ⟨rfl, rfl⟩]
      exact ⟨ha, rfl, rfl⟩
    · have hvalue : BitVec.ofNat 32 c' ≠ BitVec.ofNat 32 c := by bv_omega
      rw [if_neg fun h => hvalue h.2]
      exact ⟨rfl, rfl⟩

/-- The rows of INIT: ALLOCATED or INITIALISED to INITIALISED. -/
theorem Effect.init_transition {st : TrellisState} (he : Effect s (.init h st) t r) (hk : s.ctxs[c]? = some k)
    (hl : t.ctxs[c]? = some l) :
    if h.toNat = c ∧ r.status = .ok then k.alloc = true ∧ l.alloc = true ∧ l.inited = true
    else l.alloc = k.alloc ∧ l.inited = k.inited := by
  cases he with
  | badHandle | precond =>
    cases hk.symm.trans hl
    simp
  | init _ _ k' hp hv =>
    obtain ⟨-, -, ha⟩ := validCtx?_eq_some.mp hv
    rcases getElem?_set_validCtx? hv hk hl with ⟨hc, rfl, rfl⟩ | ⟨hne, rfl⟩
    · simp [hc, ha]
    · simp [hne]

/-- The rows of UPDATE: INITIALISED stays so on success, and a valid context is ALLOCATED after a failure. -/
theorem Effect.update_transition {n : BitVec 24} (he : Effect s (.update h n) t r) (hk : s.ctxs[c]? = some k)
    (hl : t.ctxs[c]? = some l) :
    (h.toNat = c → r.status = .ok → l.dp.toNat = k.dp.toNat + n.toNat) ∧
    if h.toNat = c ∧ r.status = .errPrecond then k.alloc = true ∧ l.alloc = true ∧ l.inited = false
    else l.alloc = k.alloc ∧ l.inited = k.inited := by
  cases he with
  | badHandle =>
    cases hk.symm.trans hl
    simp
  | precond _ hp => exact hp.elim
  | updateFailed _ _ k' hv =>
    obtain ⟨-, -, ha⟩ := validCtx?_eq_some.mp hv
    rcases getElem?_set_validCtx? hv hk hl with ⟨hc, rfl, rfl⟩ | ⟨hne, rfl⟩
    · simp [hc, ha]
    · simp [hne]
  | update _ _ k' hv hr =>
    rcases getElem?_set_validCtx? hv hk hl with ⟨hc, rfl, rfl⟩ | ⟨hne, rfl⟩
    · simp [vitRun_dp_toNat hr]
    · simp [hne]

/-- The rows of DESTROY: any state to FREE. -/
theorem Effect.destroy_transition (he : Effect s (.destroy h) t r) (hc : c < s.cfg.nctx) (hk : s.ctxs[c]? = some k)
    (hl : t.ctxs[c]? = some l) :
    (h.toNat = c → k.alloc = false → s.payLen = 0 → r.status = .ok ∧ l = k) ∧
    if h.toNat = c ∧ r.status = .ok ∧ k.alloc = true then l.alloc = false ∧ l.inited = false
    else l.alloc = k.alloc ∧ l.inited = k.inited := by
  cases he with
  | badHandle _ _ hi => cases hi
  | precond _ hp =>
    cases hk.symm.trans hl
    exact ⟨fun _ _ hp' => absurd hp' hp, by simp⟩
  | destroyNoop _ hp hv =>
    cases hk.symm.trans hl
    refine ⟨fun _ _ _ => ⟨rfl, rfl⟩, (if_neg ?_).mpr ⟨rfl, rfl⟩⟩
    rintro ⟨rfl, -, ha⟩
    cases hv.symm.trans (validCtx?_eq_some.mpr ⟨hc, hk, ha⟩)
  | destroy _ k' hp hv =>
    obtain ⟨-, -, ha⟩ := validCtx?_eq_some.mp hv
    rcases getElem?_set_validCtx? hv hk hl with ⟨hc, rfl, rfl⟩ | ⟨hne, rfl⟩
    · simp [hc, ha]
    · simp [hne]

end Lifecycle

/-- Settles O16, row by row: the statuses of a FREE and of an ALLOCATED context, and the transition lemma of each command. -/
theorem lifecycleTransitions : Obligations.LifecycleTransitions := by
  intro i s t r c k l hwf hc ht hr hk hl
  obtain ⟨-, -, -, -, -, hn⟩ := hwf
  have he := exec_effect_of_responses ht hr
  cases i with
  | setpoly p0 p1 p2 =>
    cases hk.symm.trans (he.setpoly_ctxs ▸ hl)
    exact ⟨rfl, rfl⟩
  | create len => exact he.create_transition hn hc hk hl
  | init h st => exact ⟨he.status_of_free rfl hk, he.init_transition hk hl⟩
  | update h n =>
    refine ⟨he.status_of_free rfl hk, ?_, he.update_transition hk hl⟩
    rintro rfl ha hi
    exact he.update_status_of_not_inited (validCtx?_eq_some.mpr ⟨hc, hk, ha⟩) hi
  | chainback h n e =>
    refine ⟨he.status_of_free rfl hk, ?_, eq_of_sameBlock he.chainback_sameBlock hk hl⟩
    rintro rfl ha hi
    exact he.chainback_status_of_not_inited (validCtx?_eq_some.mpr ⟨hc, hk, ha⟩) hi
  | destroy h => exact he.destroy_transition hc hk hl
  | rsEncode pad =>
    cases hk.symm.trans (he.rsEncode_ctxs ▸ hl)
    exact ⟨rfl, rfl⟩

end Sys2Proof.Machine

/-! The trellis update: the branch metric, add-compare-select in any order of butterflies, renormalisation, the effect of a
step and of UPDATE, and the metrics as least path costs (42_viterbi_update.md). -/

namespace Sys2Proof.Machine

open Sys2Proof

/-! ### Transitions and branch metrics (R130 to R133, R148) -/

theorem transitionCost_lowPred (bt : Vector BranchRow 3) (sym : Vector Byte 3) (i : Fin 128) (b : Bool) :
    transitionCost bt sym (lowPred i) b = if b then 765 - branchMetric bt sym i else branchMetric bt sym i := by
  have hfrom : butterflyFrom (lowPred i) = i := Fin.ext (Nat.mod_eq_of_lt i.isLt)
  have hside : decide (128 ≤ (lowPred i).val) = false := decide_eq_false (Nat.not_le.mpr i.isLt)
  rw [transitionCost, hfrom, hside]
  cases b <;> rfl

theorem transitionCost_highPred (bt : Vector BranchRow 3) (sym : Vector Byte 3) (i : Fin 128) (b : Bool) :
    transitionCost bt sym (highPred i) b = if b then branchMetric bt sym i else 765 - branchMetric bt sym i := by
  have hfrom : butterflyFrom (highPred i) = i := Fin.ext (by simp [butterflyFrom, highPred])
  have hside : decide (128 ≤ (highPred i).val) = true := decide_eq_true (Nat.le_add_left 128 i.val)
  rw [transitionCost, hfrom, hside]
  cases b <;> rfl

/-- The two hypotheses of a state are complementary (R148). -/
theorem transitionCost_add (bt : Vector BranchRow 3) (sym : Vector Byte 3) (p : Fin 256) :
    transitionCost bt sym p false + transitionCost bt sym p true = 765 := by
  have hle := branchMetric_le bt sym (butterflyFrom p)
  unfold transitionCost
  cases decide (128 ≤ p.val)
  · exact Nat.add_sub_cancel' hle
  · exact Nat.sub_add_cancel hle

/-- Settles O36: the sum by `symbolDistance_eq`, the transitions by the side of the predecessor. -/
theorem branchMetricIdentity : Obligations.BranchMetricIdentity := by
  intro bt sym i
  refine ⟨?_, branchMetric_le bt sym i, transitionCost_lowPred bt sym i false, transitionCost_highPred bt sym i false,
    transitionCost_lowPred bt sym i true, transitionCost_highPred bt sym i true, transitionCost_add bt sym⟩
  rw [branchMetric, symbolDistance_eq, symbolDistance_eq, symbolDistance_eq]
  rfl

/-! ### Add, compare, select (R134 to R137) -/

@[simp] theorem butterflyOf_evenSucc (i : Fin 128) : butterflyOf (evenSucc i) = i :=
  Fin.ext (by simp [butterflyOf, evenSucc])

@[simp] theorem butterflyOf_oddSucc (i : Fin 128) : butterflyOf (oddSucc i) = i :=
  Fin.ext (by simp [butterflyOf, oddSucc]; omega)

@[simp] theorem isOdd_evenSucc (i : Fin 128) : isOdd (evenSucc i) = false := by simp [isOdd, evenSucc]

@[simp] theorem isOdd_oddSucc (i : Fin 128) : isOdd (oddSucc i) = true := by simp [isOdd, oddSucc]

/-- m0 of R134; the next three lemmas give its m1, m2 and m3. -/
theorem lowCand_evenSucc (bt : Vector BranchRow 3) (sym : Vector Byte 3) (old : Bank) (i : Fin 128) :
    lowCand bt sym old (evenSucc i) = min (bankAt old (lowPred i) + branchMetric bt sym i) 32767 := by
  rw [lowCand, transitionCost_lowOf, lowOf, isOdd_evenSucc, butterflyOf_evenSucc]
  rfl

theorem highCand_evenSucc (bt : Vector BranchRow 3) (sym : Vector Byte 3) (old : Bank) (i : Fin 128) :
    highCand bt sym old (evenSucc i) = min (bankAt old (highPred i) + (765 - branchMetric bt sym i)) 32767 := by
  have hle := branchMetric_le bt sym i
  rw [highCand, transitionCost_highOf, highOf, isOdd_evenSucc, butterflyOf_evenSucc, if_neg (by decide),
    Nat.cast_sub hle]
  rfl

theorem lowCand_oddSucc (bt : Vector BranchRow 3) (sym : Vector Byte 3) (old : Bank) (i : Fin 128) :
    lowCand bt sym old (oddSucc i) = min (bankAt old (lowPred i) + (765 - branchMetric bt sym i)) 32767 := by
  have hle := branchMetric_le bt sym i
  rw [lowCand, transitionCost_lowOf, lowOf, isOdd_oddSucc, butterflyOf_oddSucc, if_pos rfl, Nat.cast_sub hle]
  rfl

theorem highCand_oddSucc (bt : Vector BranchRow 3) (sym : Vector Byte 3) (old : Bank) (i : Fin 128) :
    highCand bt sym old (oddSucc i) = min (bankAt old (highPred i) + branchMetric bt sym i) 32767 := by
  rw [highCand, transitionCost_highOf, highOf, isOdd_oddSucc, butterflyOf_oddSucc]
  rfl

/-- The new metric as a comparison: the upper predecessor's candidate only where it is strictly smaller (R135). -/
theorem bankAt_newBank_eq_ite (bt : Vector BranchRow 3) (sym : Vector Byte 3) (old : Bank) (s : Fin 256) :
    bankAt (newBank bt sym old) s =
      if highCand bt sym old s < lowCand bt sym old s then highCand bt sym old s else lowCand bt sym old s := by
  rw [bankAt_newBank, min_comm, min_def_lt]

/-- Settles O37: what `newBank` and `decisionRecord` hold at the two successors, with the four candidates put in. -/
theorem stepSelectsSmallerCandidate : Obligations.StepSelectsSmallerCandidate := by
  intro bt sym old i
  have hevenMetric := bankAt_newBank_eq_ite bt sym old (evenSucc i)
  have hoddMetric := bankAt_newBank_eq_ite bt sym old (oddSucc i)
  have hevenBit := getLsbD_decisionRecord bt sym old (evenSucc i)
  have hoddBit := getLsbD_decisionRecord bt sym old (oddSucc i)
  rw [lowCand_evenSucc, highCand_evenSucc] at hevenMetric hevenBit
  rw [lowCand_oddSucc, highCand_oddSucc] at hoddMetric hoddBit
  exact ⟨hevenMetric, hoddMetric, hevenBit, hoddBit⟩

/-! ### The butterflies in any order (R139, R146) -/

theorem getLsbD_setRecordBit (r : Record) (s p : Fin 256) (b : Bool) :
    (setRecordBit r s b).getLsbD p.val = if p = s then b else r.getLsbD p.val := by
  have hbit : (1#256 <<< s.val).getLsbD p.val = decide (p = s) := by
    rw [← BitVec.twoPow_eq, BitVec.getLsbD_twoPow]
    simp [Fin.ext_iff, eq_comm]
  cases b
  · rw [setRecordBit, if_neg (by decide), BitVec.getLsbD_and, BitVec.getLsbD_not, hbit, decide_eq_true p.isLt]
    by_cases hp : p = s <;> simp [hp]
  · rw [setRecordBit, if_pos rfl, BitVec.getLsbD_or, hbit]
    by_cases hp : p = s <;> simp [hp]

theorem eq_evenSucc_iff {p : Fin 256} {i : Fin 128} : p = evenSucc i ↔ butterflyOf p = i ∧ isOdd p = false := by
  simp only [Fin.ext_iff, evenSucc, butterflyOf, isOdd, beq_eq_false_iff_ne]
  omega

theorem eq_oddSucc_iff {p : Fin 256} {i : Fin 128} : p = oddSucc i ↔ butterflyOf p = i ∧ isOdd p = true := by
  simp only [Fin.ext_iff, oddSucc, butterflyOf, isOdd, beq_iff_eq]
  omega

/-- What a bank and a record hold for state `p`: its metric and its decision bit. -/
def entryAt (acc : Bank × Record) (p : Fin 256) : Metric × Bool := (acc.1[p], acc.2.getLsbD p.val)

theorem entryAt_ext {a b : Bank × Record} (h : ∀ p, entryAt a p = entryAt b p) : a = b :=
  Prod.ext (Vector.ext fun i hi => congrArg Prod.fst (h ⟨i, hi⟩))
    (BitVec.eq_of_getLsbD_eq fun i hi => congrArg Prod.snd (h ⟨i, hi⟩))

section Butterflies

variable (bt : Vector BranchRow 3) (sym : Vector Byte 3) (old : Bank)

/-- The entries of the new bank and record, as the butterfly of their state computes them. -/
theorem entryAt_newBank (p : Fin 256) :
    entryAt (newBank bt sym old, decisionRecord bt sym old) p =
      if isOdd p then
        (metricOf (butterflyAt bt sym old (butterflyOf p)).oddMetric, (butterflyAt bt sym old (butterflyOf p)).oddDecision)
      else
        (metricOf (butterflyAt bt sym old (butterflyOf p)).evenMetric,
          (butterflyAt bt sym old (butterflyOf p)).evenDecision) := by
  have hp := p.isLt
  simp only [entryAt, newBank, decisionRecord, Fin.getElem_fin, Vector.getElem_ofFn, BitVec.getLsbD_ofFnLE, hp, dite_true,
    Fin.eta]
  cases isOdd p <;> rfl

/-- A butterfly gives its two successors their final entries and leaves every other entry (R140). -/
theorem entryAt_butterflyWrite (acc : Bank × Record) (i : Fin 128) (p : Fin 256) :
    entryAt (butterflyWrite bt sym old acc i) p =
      if butterflyOf p = i then entryAt (newBank bt sym old, decisionRecord bt sym old) p else entryAt acc p := by
  have hset (b : Bank) (q : Fin 256) (m : Metric) : (b.set q m)[p] = if p = q then m else b[p] := by
    simp [Vector.getElem_set, Fin.ext_iff, eq_comm]
  rw [entryAt_newBank]
  simp only [entryAt, butterflyWrite, hset, getLsbD_setRecordBit, eq_evenSucc_iff, eq_oddSucc_iff]
  by_cases hi : butterflyOf p = i
  · cases isOdd p <;> simp [hi]
  · simp [hi]

/-- A loop gives their final entries to the successors of the butterflies it visits and leaves every other entry. -/
theorem entryAt_butterflyLoop (order : List (Fin 128)) (start : Bank × Record) (p : Fin 256) :
    entryAt (butterflyLoop bt sym old order start) p =
      if butterflyOf p ∈ order then entryAt (newBank bt sym old, decisionRecord bt sym old) p else entryAt start p := by
  induction order generalizing start with
  | nil => rfl
  | cons i order ih =>
    refine (ih (butterflyWrite bt sym old start i)).trans ?_
    rw [entryAt_butterflyWrite]
    by_cases hmem : butterflyOf p ∈ order
    · rw [if_pos hmem, if_pos (List.mem_cons_of_mem i hmem)]
    · rw [if_neg hmem]
      simp [hmem]

end Butterflies

/-- Settles O38: every state's butterfly is visited, so every entry is the final one. -/
theorem butterflyOrderIsNotObservable : Obligations.ButterflyOrderIsNotObservable := by
  intro bt sym old order b0 r0 hall
  exact entryAt_ext fun p => by rw [entryAt_butterflyLoop, if_pos (hall (butterflyOf p))]

/-! ### Renormalisation (R142, R151) -/

theorem renormAdjust_of_lt {b : Bank} (h : bankAt b 0 < 20017) : renormAdjust b = 0 :=
  if_neg (Int.not_le.mpr h)

/-- At or above the threshold the adjust is the least metric's height above METRIC_MIN. -/
theorem renormAdjust_of_le {b : Bank} (h : 20017 ≤ bankAt b 0) : (renormAdjust b : Int) = bankMin b + 32768 := by
  have hmin := bankMin_ge b
  have hdef : renormAdjust b = (bankMin b - METRIC_MIN).toNat := if_pos h
  rw [hdef, show METRIC_MIN = (-32768 : Int) from rfl]
  omega

theorem lowerBy_zero (b : Bank) : lowerBy 0 b = b := by
  refine bank_ext fun p => ?_
  have hge := bankAt_ge b p
  rw [bankAt_lowerBy (by omega)]
  exact Int.sub_zero _

/-- The metrics a step leaves: the new ones, lowered by the adjust (R142, R143). -/
theorem bankAt_vitStep (bt : Vector BranchRow 3) (k : Context) (acc : Word) (sym : Vector Byte 3) (p : Fin 256) :
    bankAt (vitStep bt (k, acc) sym).1.oldBank p =
      bankAt (newBank bt sym k.oldBank) p - renormAdjust (newBank bt sym k.oldBank) := by
  rw [vitStep_oldBank]
  exact bankAt_renorm _ p

/-- Settles O39: no adjust below the threshold; at it, the adjust of `renormAdjust_of_le` at a state with the least metric. -/
theorem renormalisationBringsMinimumToFloor : Obligations.RenormalisationBringsMinimumToFloor := by
  intro bt k acc sym
  refine ⟨fun hlt => ?_, fun hle => ?_⟩
  · rw [vitStep_oldBank, vitStep_acc, renormAdjust_of_lt hlt]
    exact ⟨lowerBy_zero _, BitVec.add_zero acc⟩
  · obtain ⟨hleast, q, hq⟩ := bankMin_spec (newBank bt sym k.oldBank)
    have hadjust := renormAdjust_of_le hle
    rw [hq] at hleast hadjust
    refine ⟨q, renormAdjust (newBank bt sym k.oldBank), hleast, hadjust, bankAt_vitStep bt k acc sym, ?_, ?_⟩
    · rw [bankAt_vitStep, hadjust]
      omega
    · rw [vitStep_acc, BitVec.toNat_add, BitVec.toNat_ofNat, Nat.add_mod_mod]

/-- A bound on the metrics of a bank in range, one step on. -/
theorem rangeOk.newBank_le_add {b : Bank} (hr : rangeOk b) {m : Int} (hm : ∀ p, bankAt b p ≤ m)
    (bt : Vector BranchRow 3) (sym : Vector Byte 3) (p : Fin 256) : bankAt (newBank bt sym b) p ≤ m + 765 :=
  (hr.newBank_le bt sym p false).trans (by simpa using hm (lowOf p))

/-- While no metric can have climbed to the threshold, no renormalisation fires (R151 (f)). -/
theorem vitRun_acc_eq_zero (bt : Vector BranchRow 3) {k : Context} {syms : List (Vector Byte 3)} {m : Int}
    (hm : ∀ p, bankAt k.oldBank p ≤ m) (hlen : m + 765 * syms.length < 20017) : (vitRun bt k syms).2 = 0#32 := by
  induction syms generalizing k m with
  | nil => rfl
  | cons sym syms ih =>
    rw [List.length_cons] at hlen
    push_cast at hlen
    have hr : rangeOk k.oldBank := fun p => (hm p).trans (by omega)
    have hnew := hr.newBank_le_add hm bt sym
    have hstep (p : Fin 256) : bankAt (vitStep bt (k, 0#32) sym).1.oldBank p ≤ m + 765 := by
      have := hnew p
      rw [bankAt_vitStep]
      omega
    rw [vitRun_cons, renormAdjust_of_lt ((hnew 0).trans_lt (by omega)), ih hstep (by omega)]
    rfl

/-- Settles O40: the spread 10355 of R212 (a) puts the least metric within 10355 of the threshold before the adjust, and the
greatest within 10355 of METRIC_MIN after it. -/
theorem renormalisationIsRare : Obligations.RenormalisationIsRare := by
  intro cfg bt k acc sym hinv hinit hfire
  obtain ⟨-, -, -, -, -, hmetrics⟩ := hinv
  obtain ⟨hspread, hrange⟩ := hmetrics hinit
  have hnew := hspread.newBank hrange bt sym
  have hadjust := renormAdjust_of_le hfire
  obtain ⟨q, hq⟩ := (bankMin_spec (newBank bt sym k.oldBank)).2
  have hafter (p : Fin 256) : bankAt (vitStep bt (k, acc) sym).1.oldBank p ≤ -22413 := by
    have := hnew.total p q
    rw [bankAt_vitStep]
    omega
  refine ⟨?_, hafter, fun syms hlen => vitRun_acc_eq_zero bt hafter (by omega)⟩
  have := hnew.total 0 q
  omega

/-! ### One step and one UPDATE (R140 to R145) -/

theorem newSel_ne_sel (k : Context) : k.newSel ≠ k.sel := by
  have (x : Fin 2) : 1 - x ≠ x := by revert x; decide
  exact this k.sel

/-- A step does not write the bank that was old (R139). -/
theorem vitStep_met_sel (bt : Vector BranchRow 3) (k : Context) (acc : Word) (sym : Vector Byte 3) :
    (vitStep bt (k, acc) sym).1.met[k.sel] = k.met[k.sel] :=
  Vector.getElem_set_ne k.newSel.isLt k.sel.isLt fun h => newSel_ne_sel k (Fin.ext h)

/-- DP advances without wrapping while it is below the largest LEN (log 17). -/
theorem vitStep_dp_toNat (bt : Vector BranchRow 3) {k : Context} (acc : Word) (sym : Vector Byte 3)
    (h : k.dp.toNat < 2 ^ 24) : (vitStep bt (k, acc) sym).1.dp.toNat = k.dp.toNat + 1 := by
  have hsum : k.dp.toNat + (1#25).toNat < 2 ^ 25 := Nat.add_lt_of_lt_sub (h.trans (by decide))
  exact BitVec.toNat_add_of_lt hsum

/-- Settles O41: the history by the rules of a write, the rest field by field. -/
theorem trellisStepEffect : Obligations.TrellisStepEffect := by
  intro bt k acc sym hwf hdp
  have hsel (x : Fin 2) : (1 - x).val = 1 - x.val := by revert x; decide
  exact ⟨read_write_same hwf _ _, fun t ht => read_write_ne _ _ ht, vitStep_oldBank bt (k, acc) sym,
    vitStep_met_sel bt k acc sym, hsel k.sel, vitStep_dp_toNat bt acc sym hdp,
    by rw [vitStep_acc, BitVec.toNat_add, BitVec.toNat_ofNat, Nat.add_mod_mod], rfl, rfl, rfl⟩

/-- A run writes only the records from DP on, one for each step. -/
theorem vitRun_read (bt : Vector BranchRow 3) {k : Context} {syms : List (Vector Byte 3)} {u : Nat}
    (hroom : k.dp.toNat + syms.length ≤ 2 ^ 24) (hu : u < k.dp.toNat ∨ k.dp.toNat + syms.length ≤ u) :
    (vitRun bt k syms).1.hist.read u = k.hist.read u := by
  induction syms generalizing k with
  | nil => rfl
  | cons sym syms ih =>
    rw [List.length_cons] at hroom hu
    have hdp := vitStep_dp_toNat bt 0#32 sym (k := k) (by omega)
    rw [vitRun_cons, ih (by omega) (by omega)]
    exact read_write_ne _ _ (show u ≠ k.dp.toNat by omega)

/-- Triple j of a payload is its bytes 3 j, 3 j + 1 and 3 j + 2 (R54 (b)). -/
theorem symbolTriples_getElem? {l : List Byte} {j : Nat} (h : 3 * j + 2 < l.length) :
    (symbolTriples l)[j]? = some #v[l.getD (3 * j) 0#8, l.getD (3 * j + 1) 0#8, l.getD (3 * j + 2) 0#8] := by
  induction l using symbolTriples.induct generalizing j with
  | case1 a b c rest ih =>
    cases j with
    | zero => rfl
    | succ j =>
      refine (ih (j := j) ?_).trans rfl
      simp only [List.length_cons] at h
      omega
  | case2 l hl =>
    obtain _ | ⟨a, _ | ⟨b, _ | ⟨c, rest⟩⟩⟩ := l
    · simp at h
    · simp at h
    · simp at h
    · exact (hl a b c rest rfl).elim

/-- Settles O42: UPDATE's own effect, its ERR_PRECOND effect and the one of an invalid handle. -/
theorem updateCompletes : Obligations.UpdateCompletes := by
  refine fun h n s => ⟨fun k hv hinit hbt hroom hpay hlen => ?_, fun k hv hfail => ?_, fun hv => ?_⟩
  · have hready : s.updateReady k n = true := updateReady_iff.mpr ⟨hinit, hbt, hroom, hpay⟩
    have he := Effect.update h n k hv hready (histInRange_iff.mpr (.inr (hroom.trans hlen)))
    have hcount : (symbolTriples s.payIn).length = n.toNat := symbolTriples_length hpay
    obtain ⟨-, -, halloc⟩ := validCtx?_eq_some.mp hv
    have hmax := k.len.isLt
    refine ⟨_, _, he.exec_eq, rfl, he.answered, hcount, fun j hj => ?_, rfl, vitRun_dp_toNat hready,
      (vitRun_alloc ..).trans halloc, (vitRun_inited ..).trans hinit, vitRun_len .., fun u hu => ?_, rfl, rfl, rfl, rfl⟩
    · have : s.payIn.length = 3 * n.toNat := hpay
      exact symbolTriples_getElem? (by omega)
    · exact vitRun_read s.bt (by omega) (hcount.symm ▸ hu)
  · have hready : s.updateReady k n = false := by
      refine Bool.eq_false_iff.mpr fun hr => ?_
      obtain ⟨hinit, hbt, hroom, hpay⟩ := updateReady_iff.mp hr
      rcases hfail with hf | hf | hf | hf
      · simp [hinit] at hf
      · simp [hbt] at hf
      · omega
      · exact hf hpay
    have he := Effect.updateFailed h n k hv hready
    exact ⟨_, he.exec_eq, he.answered, rfl, rfl, rfl, rfl, rfl⟩
  · have he : Effect s (.update h n) _ _ := .badHandle _ h rfl hv
    exact ⟨_, he.exec_eq, sameBlock_send s _, he.answered⟩

/-! ### A stream in two UPDATEs (R141) -/

theorem State.Inv.context {s : State} {h : Handle} {k : Context} (hs : s.Inv) (hv : s.validCtx? h = some k) :
    k.Inv s.cfg := by
  obtain ⟨-, -, -, hctxs⟩ := hs
  obtain ⟨-, hk, -⟩ := validCtx?_eq_some.mp hv
  exact hctxs k (List.mem_of_getElem? hk)

/-- An UPDATE that answers OK passed its checks, ran its steps and changed nothing but its context. -/
theorem Effect.update_of_ok {h : Handle} {n : BitVec 24} {s t : State} {r : Response} (he : Effect s (.update h n) t r)
    (hr : r.status = .ok) :
    ∃ k, s.validCtx? h = some k ∧ s.updateReady k n = true ∧ r = ⟨.ok, (vitRun s.bt k (symbolTriples s.payIn)).2, []⟩ ∧
      (s.setCtx h.toNat (vitRun s.bt k (symbolTriples s.payIn)).1).sameBlock t := by
  cases he with
  | update _ _ k hv hready => exact ⟨k, hv, hready, rfl, sameBlock_send _ _⟩
  | badHandle | precond | updateFailed => cases hr

/-- The checks of two UPDATEs in a row are those of one UPDATE of the whole payload. -/
theorem updateReady_append {s s1 : State} {k : Context} {n1 n2 : BitVec 24} {pay1 pay2 : List Byte}
    (h1 : (s.withPayload pay1).updateReady k n1 = true)
    (h2 : (s1.withPayload pay2).updateReady (vitRun s.bt k (symbolTriples pay1)).1 n2 = true)
    (hsum : n1.toNat + n2.toNat < 2 ^ 24) : (s.withPayload (pay1 ++ pay2)).updateReady k (n1 + n2) = true := by
  have hdp : (vitRun s.bt k (symbolTriples pay1)).1.dp.toNat = k.dp.toNat + n1.toNat := vitRun_dp_toNat h1
  obtain ⟨hinit, hbt, -, hpay1⟩ := updateReady_iff.mp h1
  obtain ⟨-, -, hroom, hpay2⟩ := updateReady_iff.mp h2
  have hn : (n1 + n2).toNat = n1.toNat + n2.toNat := BitVec.toNat_add_of_lt hsum
  rw [hdp, vitRun_len] at hroom
  refine updateReady_iff.mpr ⟨hinit, hbt, by omega, ?_⟩
  calc (pay1 ++ pay2).length = pay1.length + pay2.length := List.length_append
    _ = 3 * n1.toNat + 3 * n2.toNat := congrArg₂ (· + ·) hpay1 hpay2
    _ = 3 * (n1 + n2).toNat := by omega

/-- Settles O43: the second run goes on from the context the first left, so `vitRun_append` joins them. -/
theorem updateMaySplitAStream : Obligations.UpdateMaySplitAStream := by
  intro h n1 n2 s s1 s2 pay1 pay2 r1 r2 hinv hsum ht1 hr1 hok1 ht2 hr2 hok2
  obtain ⟨k, hv, hready1, rfl, hcfg1, hbt1, hvalid1, hpar1, hctxs1⟩ :=
    (exec_effect_of_responses ht1 hr1).update_of_ok hok1
  obtain ⟨k', hv', hready2, rfl, hcfg2, hbt2, hvalid2, hpar2, hctxs2⟩ :=
    (exec_effect_of_responses ht2 hr2).update_of_ok hok2
  obtain ⟨-, -, halloc⟩ := validCtx?_eq_some.mp hv
  obtain rfl : k' = (vitRun s.bt k (symbolTriples pay1)).1 :=
    Option.some.inj (hv'.symm.trans (validCtx?_set_same hv hcfg1 hctxs1 ((vitRun_alloc ..).trans halloc)))
  obtain ⟨-, -, -, hpay1⟩ := updateReady_iff.mp hready1
  have hready := updateReady_append hready1 hready2 hsum
  obtain ⟨-, -, hroom, -⟩ := updateReady_iff.mp hready
  obtain ⟨-, hlen, -⟩ := hinv.context hv
  have he := Effect.update (s := s.withPayload (pay1 ++ pay2)) h (n1 + n2) k hv hready
    (histInRange_iff.mpr (.inr (hroom.trans (hlen halloc))))
  have hrun : vitRun s.bt k (symbolTriples (pay1 ++ pay2)) = _ := symbolTriples_append hpay1 ▸ vitRun_append s.bt k _ _
  have hbt : s1.bt = s.bt := hbt1
  refine ⟨_, he.exec_eq, ?_, (hcfg2.trans hcfg1).symm, (hbt2.trans hbt1).symm, (hvalid2.trans hvalid1).symm,
    (hpar2.trans hpar1).symm, ?_⟩
  · simp [hrun, hbt]
  · rw [hctxs2]
    simp [hrun, hbt, hctxs1]

/-! ### Metrics as least path costs (R144) -/

@[simp] theorem isOdd_nextState (p : Fin 256) (b : Bool) : isOdd (nextState p b) = b := by
  cases b
  · simp only [isOdd, nextState, Bool.toNat_false, beq_eq_false_iff_ne]
    omega
  · simp only [isOdd, nextState, Bool.toNat_true, beq_iff_eq]
    omega

theorem toNat_isOdd (s : Fin 256) : (isOdd s).toNat = s.val % 2 := by
  rcases Nat.mod_two_eq_zero_or_one s.val with h | h <;> simp [isOdd, h]

@[simp] theorem nextState_lowOf (s : Fin 256) : nextState (lowOf s) (isOdd s) = s := by
  have hs := s.isLt
  simp only [Fin.ext_iff, nextState, lowOf, lowPred, butterflyOf, toNat_isOdd]
  omega

@[simp] theorem nextState_highOf (s : Fin 256) : nextState (highOf s) (isOdd s) = s := by
  have hs := s.isLt
  simp only [Fin.ext_iff, nextState, highOf, highPred, butterflyOf, toNat_isOdd]
  omega

/-- A state is one of the two predecessors of its successors (R132). -/
theorem lowOf_or_highOf_nextState (p : Fin 256) (b : Bool) :
    lowOf (nextState p b) = p ∨ highOf (nextState p b) = p := by
  have hb : b.toNat ≤ 1 := Bool.toNat_le b
  simp only [Fin.ext_iff, lowOf, highOf, lowPred, highPred, butterflyOf, nextState]
  omega

section LeastCost

variable {bt : Vector BranchRow 3} {old : Bank}

/-- A new metric is at most the cost of each way into its state. -/
theorem rangeOk.newBank_nextState_le (hr : rangeOk old) (sym : Vector Byte 3) (p : Fin 256) (b : Bool) :
    bankAt (newBank bt sym old) (nextState p b) ≤ bankAt old p + transitionCost bt sym p b := by
  obtain ⟨hlow, hhigh⟩ := hr.cands bt sym (nextState p b)
  rw [isOdd_nextState] at hlow hhigh
  rw [bankAt_newBank]
  rcases lowOf_or_highOf_nextState p b with hp | hp
  · rw [hp] at hlow
    exact (min_le_left _ _).trans_eq hlow
  · rw [hp] at hhigh
    exact (min_le_right _ _).trans_eq hhigh

/-- A new metric is the cost of one way into its state. -/
theorem rangeOk.exists_newBank_eq (hr : rangeOk old) (sym : Vector Byte 3) (s : Fin 256) :
    ∃ p b, nextState p b = s ∧ bankAt (newBank bt sym old) s = bankAt old p + transitionCost bt sym p b := by
  obtain ⟨hlow, hhigh⟩ := hr.cands bt sym s
  rw [bankAt_newBank]
  rcases min_choice (lowCand bt sym old s) (highCand bt sym old s) with hmin | hmin
  · exact ⟨lowOf s, isOdd s, nextState_lowOf s, hmin.trans hlow⟩
  · exact ⟨highOf s, isOdd s, nextState_highOf s, hmin.trans hhigh⟩

/-- `m` is the least of (old metric of p) + (cost of a path from p to `e` against `syms`). -/
def LeastCost (bt : Vector BranchRow 3) (old : Bank) (syms : List (Vector Byte 3)) (e : Fin 256) (m : Int) : Prop :=
  (∀ p bits, bits.length = syms.length → pathEnd p bits = e → m ≤ bankAt old p + pathCost bt p syms bits) ∧
  ∃ p bits, bits.length = syms.length ∧ pathEnd p bits = e ∧ m = bankAt old p + pathCost bt p syms bits

theorem leastCost_nil (bt : Vector BranchRow 3) (old : Bank) (e : Fin 256) : LeastCost bt old [] e (bankAt old e) := by
  refine ⟨fun p bits hbits hend => ?_, e, [], rfl, rfl, (add_zero _).symm⟩
  obtain rfl := List.length_eq_zero_iff.mp hbits
  subst hend
  exact (add_zero _).ge

/-- Least costs from the bank after one step, lowered by `a`, are least costs from the bank before it less `a`: a path is a
first transition and the rest. -/
theorem LeastCost.cons {new : Bank} {sym : Vector Byte 3} {syms : List (Vector Byte 3)} {e : Fin 256} {m : Int} {a : Nat}
    (hr : rangeOk old) (hnew : ∀ p, bankAt new p = bankAt (newBank bt sym old) p - a) (h : LeastCost bt new syms e m) :
    LeastCost bt old (sym :: syms) e (m + a) := by
  obtain ⟨hle, q, bits, hbits, hend, hm⟩ := h
  constructor
  · intro p bits' hbits' hend'
    obtain _ | ⟨b, bits'⟩ := bits'
    · cases hbits'
    have hrest := hle (nextState p b) bits' (Nat.succ.inj hbits') hend'
    have hfirst := hr.newBank_nextState_le (bt := bt) sym p b
    rw [hnew] at hrest
    simp only [pathCost, Nat.cast_add]
    omega
  · obtain ⟨p, b, rfl, hfirst⟩ := hr.exists_newBank_eq (bt := bt) sym q
    refine ⟨p, b :: bits, congrArg Nat.succ hbits, hend, ?_⟩
    simp only [pathCost, Nat.cast_add]
    rw [hm, hnew, hfirst]
    omega

/-- The metrics a run leaves, plus the sum of its adjusts, are least path costs; ACC is that sum modulo 2^32. -/
theorem exists_leastCost_vitRun (bt : Vector BranchRow 3) {k : Context} {t : Nat} (hs : spreadOk k.oldBank t)
    (hr : rangeOk k.oldBank) (syms : List (Vector Byte 3)) :
    ∃ total : Nat, (vitRun bt k syms).2 = BitVec.ofNat 32 total ∧
      ∀ e, LeastCost bt k.oldBank syms e (bankAt (vitRun bt k syms).1.oldBank e + total) := by
  induction syms generalizing k t with
  | nil => exact ⟨0, rfl, fun e => by simpa using leastCost_nil bt k.oldBank e⟩
  | cons sym syms ih =>
    have hnew := hs.newBank hr bt sym
    have hold := vitStep_oldBank bt (k, 0#32) sym
    obtain ⟨total, hacc, hleast⟩ := ih (hold ▸ hnew.renorm) (hold ▸ hnew.range)
    refine ⟨total + renormAdjust (newBank bt sym k.oldBank), ?_, fun e => ?_⟩
    · rw [vitRun_cons, hacc, add_comm total, BitVec.ofNat_add]
    · have := (hleast e).cons hr (bankAt_vitStep bt k 0#32 sym)
      rw [vitRun_cons, Nat.cast_add, ← add_assoc]
      exact this

end LeastCost

/-- Settles O44: the run of an UPDATE that answered OK, on a context whose metrics are in range. -/
theorem updateMetricsAreLeastPathCosts : Obligations.UpdateMetricsAreLeastPathCosts := by
  intro h n s t v k hinv hv ht hr
  obtain ⟨k', hv', hready, hresp, -, -, -, -, hctxs⟩ := (exec_effect_of_responses ht hr).update_of_ok rfl
  cases hv.symm.trans hv'
  obtain ⟨hinit, -, -, hpay⟩ := updateReady_iff.mp hready
  obtain ⟨-, -, -, -, -, hmetrics⟩ := hinv.context hv
  obtain ⟨hspread, hrange⟩ := hmetrics hinit
  obtain ⟨total, hacc, hleast⟩ := exists_leastCost_vitRun s.bt hspread hrange (symbolTriples s.payIn)
  have hl := (congrArg (·[h.toNat]?) hctxs).trans (getElem?_set_of_validCtx? hv _)
  refine ⟨_, total, hl, (congrArg Response.value hresp).trans hacc, ?_⟩
  rw [← symbolTriples_length hpay]
  exact hleast

end Sys2Proof.Machine

/-! The chainback: its three answers, the bytes the walk leaves, and the decoded bits that S carries along the walk
(43_chainback.md). -/

namespace Sys2Proof.Machine

open Sys2Proof

/-! ### The decoded bytes and bits (R163 to R165) -/

@[simp] theorem chainOutput_length (hist : Memory) (nbits : Nat) (e : TrellisState) :
    (chainOutput hist nbits e).length = (nbits + 7) / 8 := by
  rw [chainOutput, chainWalk_length, List.length_replicate, outputLen]

/-- Byte j is the whole of S after the step for its first bit, the last to write it (R165). -/
theorem chainOutput_getD (hist : Memory) (e : TrellisState) {nbits j : Nat} (hj : 8 * j < nbits) :
    (chainOutput hist nbits e).getD j 0#8 = walkState hist nbits e (8 * j) := by
  have hlen : j < (List.replicate (outputLen nbits) 0#8).length := by
    rw [List.length_replicate, outputLen]
    omega
  have hwalk := chainWalk_getD hist nbits e nbits _ le_rfl j hlen
  rwa [walkState_start, if_pos hj] at hwalk

/-- The decision read for bit n + j enters S at bit 7 and has moved down by j when the step for bit n is done (R164). -/
theorem getLsbD_walkState (hist : Memory) (e : TrellisState) {nbits n j : Nat} (hj : j < 8) (hn : n + j < nbits) :
    (walkState hist nbits e n).getLsbD (7 - j) =
      (hist.read (n + j + 8)).getLsbD (walkState hist nbits e (n + j + 1)).toNat := by
  induction j generalizing n with
  | zero =>
    rw [walkState_step hist e (n := n) hn, getLsbD_chainStep _ _ _ _ (by omega)]
    rfl
  | succ j ih =>
    rw [walkState_step hist e (by omega), getLsbD_chainStep _ _ _ _ (by omega), if_neg (by omega),
      show 7 - (j + 1) + 1 = 7 - j by omega, ih (by omega) (by omega), show n + 1 + j = n + (j + 1) by omega]

/-- Decoded bit n is the decision the walk reads for it, moved down by n mod 8 in the S its byte holds (R163, R165). -/
theorem decodedBit_chainOutput (hist : Memory) (e : TrellisState) {nbits n : Nat} (hn : n < nbits) :
    decodedBit (chainOutput hist nbits e) n =
      (hist.read (n + 8)).getLsbD (walkState hist nbits e (n + 1)).toNat := by
  have hsplit : 8 * (n / 8) + n % 8 = n := Nat.div_add_mod n 8
  have hbit := getLsbD_walkState hist e (nbits := nbits) (n := 8 * (n / 8)) (Nat.mod_lt n (by decide)) (by omega)
  rw [hsplit] at hbit
  rw [decodedBit, chainOutput_getD hist e (by omega), hbit]

/-- Settles O46: the walk by its steps, the output by `chainOutput_getD` and `decodedBit_chainOutput`. -/
theorem chainbackPacksDecodedBits : Obligations.ChainbackPacksDecodedBits := by
  refine fun hist nbits e =>
    ⟨walkState_start hist nbits e, fun n hn => ⟨?_, decodedBit_chainOutput hist e hn⟩, chainOutput_length hist nbits e,
      fun j hj => chainOutput_getD hist e (by omega)⟩
  rw [walkState_step hist e hn, toNat_chainStep]

/-- Settles O47: bit 7 - j of S and decoded bit n + j are the same decision. -/
theorem walkStateHoldsTheNextBits : Obligations.WalkStateHoldsTheNextBits := by
  intro hist nbits e n j hj hn
  rw [getLsbD_walkState hist e hj hn, decodedBit_chainOutput hist e hn]

/-! ### The command (R161, R166) -/

/-- The returned metric does not wrap: it is a number 0 to 65535 (R166). -/
theorem toNat_endMetric (k : Context) (e : TrellisState) :
    ((endMetric k e).toNat : Int) = bankAt k.oldBank (stateIndex e) + 32768 := by
  have hge := bankAt_ge k.oldBank (stateIndex e)
  have hle := bankAt_le k.oldBank (stateIndex e)
  rw [endMetric, BitVec.toNat_ofNat, show METRIC_MIN = (-32768 : Int) from rfl]
  omega

/-- Settles O45: CHAINBACK's own effect, its ERR_PRECOND effect and the one of an invalid handle; none writes a field. -/
theorem chainbackCompletes : Obligations.ChainbackCompletes := by
  refine fun h n e s => ⟨fun k hv hpay hinit hroom hdepth => ?_, fun k hv hfail => ?_, fun hv => ?_⟩
  · have hready : s.chainbackReady k n = true := chainbackReady_iff.mpr ⟨hpay, hinit, hroom⟩
    have hrange : histInRange s.cfg TAIL n.toNat = true :=
      histInRange_iff.mpr (.inr ((Nat.add_comm ..).trans_le (hroom.trans hdepth)))
    have he := Effect.chainback h n e k hv hready hrange
    exact ⟨_, _, _, he.exec_eq, he.chainback_sameBlock, he.answered, toNat_endMetric k e, rfl, chainOutput_length ..⟩
  · have hready : s.chainbackReady k n = false := by
      refine Bool.eq_false_iff.mpr fun hr => ?_
      obtain ⟨hpay, hinit, hroom⟩ := chainbackReady_iff.mp hr
      rcases hfail with hf | hf | hf
      · exact hf hpay
      · simp [hinit] at hf
      · exact Nat.not_lt.mpr hroom hf
    have he : Effect s (.chainback h n e) _ _ := .precond _ ⟨k, hv, hready⟩
    exact ⟨_, he.exec_eq, he.chainback_sameBlock, he.answered⟩
  · have he : Effect s (.chainback h n e) _ _ := .badHandle _ h rfl hv
    exact ⟨_, he.exec_eq, he.chainback_sameBlock, he.answered⟩

end Sys2Proof.Machine

/-! Exceptions: which effects answer which status, what a failure leaves as it is, which contexts a command can change, and a
state for each command in which it answers OK, and one in which it answers ERR_PRECOND (60_exceptions.md R175 to R190). -/

namespace Sys2Proof.Machine

open Sys2Proof

/-! ### The causes of ERR_ALLOC and of ERR_ILLEGAL (R177, R179) -/

/-- ERR_ALLOC has one cause: a CREATE without room. -/
theorem Effect.of_errAlloc {i : Instr} {s t : State} {r : Response} (he : Effect s i t r) (hr : r.status = .errAlloc) :
    ∃ len, i = .create len ∧ s.payLen = 0 ∧ (s.cfg.histDepth < len.toNat ∨ s.freeCtx? = none) := by
  cases he with
  | noRoom len hp hn => exact ⟨len, rfl, hp, hn⟩
  | badHandle | precond | updateFailed | setpoly | create | init | update | chainback | destroyNoop | destroy | rsEncode =>
    cases hr

/-- No command that decodes answers ERR_ILLEGAL. -/
theorem Effect.status_ne_errIllegal {i : Instr} {s t : State} {r : Response} (he : Effect s i t r) :
    r.status ≠ .errIllegal := by
  cases he <;> exact nofun

/-- Settles O32: `Effect.of_errAlloc`, and conversely the `noRoom` effect. -/
theorem createFailsExactlyWithoutRoom : Obligations.CreateFailsExactlyWithoutRoom := by
  refine fun i s => ⟨fun ⟨t, v, out, ht, _, _, hresp⟩ => ?_, fun ⟨len, hi, hp, hroom⟩ => ?_⟩
  · obtain ⟨len, hi, hp, hroom⟩ := (exec_effect_of_responses ht hresp).of_errAlloc rfl
    exact ⟨len, hi, hp, hroom.imp_right freeCtx?_eq_none.mp⟩
  · subst hi
    have he := Effect.noRoom len hp (hroom.imp_right freeCtx?_eq_none.mpr)
    exact ⟨_, _, _, he.exec_eq, he.answered⟩

/-! ### The response of a step (R73, R179) -/

/-- `step_command` with the response that the step appends to the log. -/
theorem step_command_of_responses {s t : State} {c : Command} {rest : List Input} {r : Response}
    (hp : s.pending = .command c :: rest) (ht : step s = .next t) (hr : t.responses = s.responses ++ [r]) :
    (∃ e, decode c.word = .error e ∧ r.status = .errIllegal ∧ s.sameBlock t) ∨
    ∃ i, decode c.word = .ok i ∧ Effect (s.accept c rest) i t r := by
  obtain ⟨e, hd, rfl⟩ | ⟨i, r', hd, he⟩ := step_command hp ht
  · obtain rfl : (⟨.errIllegal, 0#32, []⟩ : Response) = r := by simpa using hr
    exact .inl ⟨e, hd, rfl, sameBlock_accept_send s c rest _⟩
  · obtain ⟨-, -, hr'⟩ := he.answered
    obtain rfl : r' = r := by simpa using hr'.symm.trans hr
    exact .inr ⟨i, hd, he⟩

/-- ERR_ILLEGAL is the answer to undecodable words, and to no others. -/
theorem step_status_eq_errIllegal_iff {s t : State} {c : Command} {rest : List Input} {r : Response}
    (hp : s.pending = .command c :: rest) (ht : step s = .next t) (hr : t.responses = s.responses ++ [r]) :
    r.status = .errIllegal ↔ ∃ e, decode c.word = .error e := by
  obtain ⟨e, hd, hill, -⟩ | ⟨i, hd, he⟩ := step_command_of_responses hp ht hr
  · exact iff_of_true hill ⟨e, hd⟩
  · refine iff_of_false he.status_ne_errIllegal fun ⟨e, hd'⟩ => ?_
    cases hd.symm.trans hd'

/-! ### What a failure changes (R180) -/

/-- A failed command changes nothing, except that UPDATE's ERR_PRECOND clears INITED of its context. -/
theorem Effect.of_failure {i : Instr} {s t : State} {r : Response} (he : Effect s i t r) (hr : r.status ≠ .ok) :
    (s.sameBlock t ∧ ¬ ∃ ctx n, i = .update ctx n ∧ r.status = .errPrecond) ∨
    ∃ ctx n k, i = .update ctx n ∧ r.status = .errPrecond ∧ s.validCtx? ctx = some k ∧
      (s.setCtx ctx.toNat k.invalidate).sameBlock t := by
  cases he with
  | badHandle => exact .inl ⟨sameBlock_send s _, fun ⟨_, _, _, hst⟩ => nomatch hst⟩
  | noRoom => exact .inl ⟨sameBlock_send s _, fun ⟨_, _, hi, _⟩ => nomatch hi⟩
  | precond i hp =>
    refine .inl ⟨sameBlock_send s _, fun ⟨ctx, n, hi, _⟩ => ?_⟩
    subst hi
    exact hp
  | updateFailed ctx n k hv => exact .inr ⟨ctx, n, k, rfl, rfl, hv, sameBlock_send _ _⟩
  | setpoly | create | init | update | chainback | destroyNoop | destroy | rsEncode => exact absurd rfl hr

/-- Settles O9: an illegal word changes nothing, a legal one what `Effect.of_failure` allows. -/
theorem failedCommandChangesNothing : Obligations.FailedCommandChangesNothing := by
  intro s t c rest r hp ht hresp hr
  obtain ⟨e, hd, -, hsame⟩ | ⟨i, hd, he⟩ := step_command_of_responses hp ht hresp
  · refine .inl ⟨hsame, fun ⟨ctx, n, hd', _⟩ => ?_⟩
    cases hd.symm.trans hd'
  · rcases he.of_failure hr with ⟨hsame, hno⟩ | ⟨ctx, n, k, rfl, hst, hv, hcfg, hbt, hbtValid, hparity, hctxs⟩
    · exact .inl ⟨hsame, fun ⟨ctx, n, hd', hst⟩ => hno ⟨ctx, n, Except.ok.inj (hd.symm.trans hd'), hst⟩⟩
    · exact .inr ⟨ctx, n, k, hd, hst, (validCtx?_congr rfl rfl ctx).symm.trans hv, hcfg, hbt, hbtValid, hparity, hctxs⟩

/-! ### Which contexts a command changes (R190) -/

/-- Context `c` is the one `i` names and may write, or the one a CREATE answers with `r`. -/
def MayWriteContext (i : Instr) (r : Response) (c : Nat) : Prop :=
  (∃ h st, i = .init h st ∧ h.toNat = c) ∨ (∃ h n, i = .update h n ∧ h.toNat = c) ∨
    (∃ h, i = .destroy h ∧ h.toNat = c) ∨
    ∃ len, i = .create len ∧ r.status = .ok ∧ r.value = BitVec.ofNat 32 c

/-- A command leaves the contexts as they are, or replaces the one it names or allocates. -/
theorem Effect.ctxs_eq_or_set {i : Instr} {s t : State} {r : Response} (he : Effect s i t r) :
    t.ctxs = s.ctxs ∨ ∃ c l, MayWriteContext i r c ∧ t.ctxs = s.ctxs.set c l := by
  cases he with
  | badHandle | noRoom | precond | setpoly | chainback | destroyNoop | rsEncode => exact .inl rfl
  | init h st => exact .inr ⟨h.toNat, _, .inl ⟨h, st, rfl, rfl⟩, rfl⟩
  | update h n | updateFailed h n => exact .inr ⟨h.toNat, _, .inr (.inl ⟨h, n, rfl, rfl⟩), rfl⟩
  | destroy h => exact .inr ⟨h.toNat, _, .inr (.inr (.inl ⟨h, rfl, rfl⟩)), rfl⟩
  | create len c => exact .inr ⟨c, _, .inr (.inr (.inr ⟨len, rfl, rfl, rfl⟩)), rfl⟩

/-- Settles O15: a context that differs is the one replaced. -/
theorem commandsLeaveOtherContextsAlone : Obligations.CommandsLeaveOtherContextsAlone := by
  intro i s t r ht hr
  rcases (exec_effect_of_responses ht hr).ctxs_eq_or_set with hsame | ⟨c, l, hc, hset⟩
  · rw [hsame]
    exact ⟨rfl, fun c hne => absurd rfl hne⟩
  · rw [hset]
    refine ⟨List.length_set, fun c' hne => ?_⟩
    obtain rfl : c = c' := by
      by_contra h
      exact hne (List.getElem?_set_ne h)
    exact hc

/-! ### A state in which a command answers OK, and one in which it answers ERR_PRECOND (R175) -/

/-- A configuration with every handle in range, one parity symbol, and history for every LEN. -/
def roomyConfig : Config := { Config.t2 with genpoly := [0#8], nctx := 16, histDepth := 2 ^ 24 }

/-- A block of `roomyConfig` with its branch table valid and `k` in every context, about to run a command with payload `pay`. -/
def uniformState (k : Context) (pay : List Byte) : State :=
  { State.resetOf roomyConfig with btValid := true, ctxs := List.replicate 16 k, payIn := pay }

theorem uniformState_getElem? (k : Context) (pay : List Byte) {c : Nat} (hc : c < 16) :
    (uniformState k pay).ctxs[c]? = some k :=
  List.getElem?_replicate_of_lt hc

/-- Every handle is valid when every context is allocated. -/
theorem validCtx?_uniformState {k : Context} (ha : k.alloc = true) (pay : List Byte) (h : Handle) :
    (uniformState k pay).validCtx? h = some k :=
  validCtx?_eq_some.mpr ⟨h.isLt, uniformState_getElem? k pay h.isLt, ha⟩

theorem freeCtx?_uniformState {k : Context} (ha : k.alloc = false) (pay : List Byte) :
    (uniformState k pay).freeCtx? = some 0 :=
  freeCtx?_eq_some.mpr
    ⟨Nat.zero_lt_succ 15, ⟨k, uniformState_getElem? k pay (by decide), ha⟩, fun _ hj => absurd hj (Nat.not_lt_zero _)⟩

/-- An initialised context with LEN and DP as given. -/
def initedContext (len : BitVec 24) (dp : BitVec 25) : Context :=
  { Context.reset with alloc := true, inited := true, len := len, dp := dp }

/-- Every command can answer OK; RS_ENCODE needs PAD to leave room for the one parity symbol. -/
theorem exists_effect_ok (i : Instr) (hpad : ∀ pad, i = .rsEncode pad → pad.toNat ≤ 254) :
    ∃ s t v out, Effect s i t ⟨.ok, v, out⟩ := by
  cases i with
  | setpoly p0 p1 p2 => exact ⟨State.reset, _, _, _, .setpoly p0 p1 p2 rfl⟩
  | create len =>
    exact ⟨_, _, _, _, .create len 0 _ rfl len.isLt.le (freeCtx?_uniformState (k := Context.reset) rfl [])
      (uniformState_getElem? _ [] (by decide))⟩
  | init h st => exact ⟨_, _, _, _, .init h st _ rfl (validCtx?_uniformState (k := initedContext 0 0) rfl [] h)⟩
  | update h n =>
    have hv := validCtx?_uniformState (k := initedContext n 0) rfl (List.replicate (3 * n.toNat) 0#8) h
    refine ⟨_, _, _, _, .update h n _ hv ?_ (histInRange_iff.mpr (.inr ((Nat.zero_add n.toNat).trans_le n.isLt.le)))⟩
    exact updateReady_iff.mpr ⟨rfl, rfl, (Nat.zero_add n.toNat).le, List.length_replicate⟩
  | chainback h n e =>
    have hn := n.isLt
    have hv := validCtx?_uniformState (k := initedContext 0 (BitVec.ofNat 25 (n.toNat + 8))) rfl [] h
    have hdp : n.toNat + 8 ≤ (BitVec.ofNat 25 (n.toNat + 8)).toNat := by
      rw [BitVec.toNat_ofNat]
      omega
    refine ⟨_, _, _, _, .chainback h n e _ hv (chainbackReady_iff.mpr ⟨rfl, rfl, hdp⟩) (histInRange_iff.mpr (.inr ?_))⟩
    show 8 + n.toNat ≤ 2 ^ 24
    omega
  | destroy h => exact ⟨_, _, _, _, .destroy h _ rfl (validCtx?_uniformState (k := initedContext 0 0) rfl [] h)⟩
  | rsEncode pad =>
    have hp := hpad pad rfl
    have hfill : (List.replicate (254 - pad.toNat) 0#8).length + 1 + pad.toNat = 255 := by
      rw [List.length_replicate]
      omega
    exact ⟨uniformState Context.reset (List.replicate (254 - pad.toNat) 0#8), _, _, _, .rsEncode pad hfill⟩

/-- No command takes 256 bytes: not a multiple of 3, and more than a Reed-Solomon block. -/
theorem not_shapeOk_256 (i : Instr) (cfg : Config) : ¬ i.shapeOk cfg 256 := by
  have hNN : NN = 255 := rfl
  cases i <;> simp only [Instr.shapeOk] <;> omega

/-- Every command can answer ERR_PRECOND: 256 bytes of payload, with every handle valid. -/
theorem exists_answers_errPrecond (i : Instr) :
    ∃ s t : State, exec i s = .next t ∧ s.answered t ⟨.errPrecond, 0#32, []⟩ := by
  obtain ⟨pay, hlen⟩ : ∃ pay : List Byte, pay.length = 256 := ⟨List.replicate 256 0#8, List.length_replicate⟩
  have hshape : ¬ i.shapeOk roomyConfig pay.length := hlen ▸ not_shapeOk_256 i roomyConfig
  refine ⟨_, wrongPayloadLengthIsRejected i (uniformState (initedContext 0 0) pay) hshape fun c _ => ?_⟩
  rw [validCtx?_uniformState rfl]
  exact Option.some_ne_none _

/-- Settles O10: the codes by cases, the causes of each status, and a state for each answer. -/
theorem statusesEachCommandCanAnswer : Obligations.StatusesEachCommandCanAnswer := by
  refine ⟨⟨rfl, rfl, rfl, rfl, rfl, fun st => by cases st <;> decide⟩, fun i s t r ht hr => ?_,
    fun s t c rest r hp ht hr => step_status_eq_errIllegal_iff hp ht hr, fun i hpad => ⟨?_, exists_answers_errPrecond i⟩⟩
  · have he := exec_effect_of_responses ht hr
    refine ⟨he.status_ne_errIllegal, fun hst => ?_, fun hst => ?_⟩
    · obtain ⟨h, hi, -⟩ := he.of_errHandle hst
      exact (checkedHandle_eq_some hi).imp (fun h' => ⟨h, h'⟩) (Or.imp (fun h' => ⟨h, h'⟩) fun h' => ⟨h, h'⟩)
    · obtain ⟨len, hi, -, -⟩ := he.of_errAlloc hst
      exact ⟨len, hi⟩
  · obtain ⟨s, t, v, out, he⟩ := exists_effect_ok i hpad
    exact ⟨s, t, v, out, he.exec_eq, he.answered⟩

end Sys2Proof.Machine

/-! The invariant of every run: the updates of a context keep `Context.Inv`, so every step keeps `State.Inv`, which holds at
reset; and the metric bounds it gives for every reachable state (70_reset_and_hazards.md R212). -/

namespace Sys2Proof.Machine

open Sys2Proof

/-! ### The metrics INIT writes (R116, R212) -/

/-- INIT's metrics are INIT_BIAS apart at most, and alike within a state. -/
theorem spreadOk_startBank (st : TrellisState) : spreadOk (startBank st) 0 := by
  refine ⟨fun j hj p q hpq => ?_, fun _ p q => ?_⟩
  · obtain rfl : j = 0 := by omega
    obtain rfl : p = q := Fin.ext (by simpa using hpq)
    simp
  · rw [bankAt_startBank, bankAt_startBank, show INIT_BIAS = (5000 : Int) from rfl]
    split <;> split <;> simp

theorem rangeOk_startBank (st : TrellisState) : rangeOk (startBank st) := fun p => by
  rw [bankAt_startBank]
  split <;> decide

/-! ### What happens to a context (R113 to R118, R141, R145) -/

section Context

variable {cfg : Config} {k : Context}

/-- A context that is not initialised has no cursor and no metrics to bound: CREATE, DESTROY and a failed UPDATE leave one. -/
theorem Context.inv_of_not_inited (hi : k.inited = false) (hlen : k.alloc = true → k.len.toNat ≤ cfg.histDepth)
    (hwf : k.hist.wf) (hbound : ∀ e ∈ k.hist, e.1 < cfg.histDepth) : k.Inv cfg := by
  have hno : k.inited ≠ true := by simp [hi]
  exact ⟨(absurd · hno), hlen, (absurd · hno), hwf, hbound, (absurd · hno)⟩

theorem Context.reset_inv (cfg : Config) : Context.reset.Inv cfg :=
  Context.inv_of_not_inited rfl nofun ⟨.nil, nofun⟩ nofun

theorem Context.Inv.allocate (h : k.Inv cfg) {len : BitVec 24} (hlen : len.toNat ≤ cfg.histDepth) :
    (k.allocate len).Inv cfg := by
  obtain ⟨-, -, -, hwf, hbound, -⟩ := h
  exact Context.inv_of_not_inited rfl (fun _ => hlen) hwf hbound

theorem Context.Inv.release (h : k.Inv cfg) : k.release.Inv cfg := by
  obtain ⟨-, -, -, hwf, hbound, -⟩ := h
  exact Context.inv_of_not_inited rfl nofun hwf hbound

theorem Context.Inv.invalidate (h : k.Inv cfg) : k.invalidate.Inv cfg := by
  obtain ⟨-, hlen, -, hwf, hbound, -⟩ := h
  exact Context.inv_of_not_inited rfl hlen hwf hbound

theorem Context.Inv.start (h : k.Inv cfg) (ha : k.alloc = true) (st : TrellisState) : (k.start st).Inv cfg := by
  obtain ⟨-, hlen, -, hwf, hbound, -⟩ := h
  refine ⟨fun _ => ha, hlen, fun _ => Nat.zero_le _, hwf, hbound, fun _ => ?_⟩
  rw [start_oldBank]
  exact ⟨spreadOk_startBank st, rangeOk_startBank st⟩

/-- A step with room for its record keeps the invariant: the butterflies widen the spread as one more step may, and the
renormalisation restores the range (R212). -/
theorem Context.Inv.vitStep (h : k.Inv cfg) (hi : k.inited = true) (hroom : k.dp.toNat < k.len.toNat)
    (bt : Vector BranchRow 3) (acc : Word) (sym : Vector Byte 3) : (vitStep bt (k, acc) sym).1.Inv cfg := by
  obtain ⟨halloc, hlen, -, hwf, hbound, hmetrics⟩ := h
  obtain ⟨hspread, hrange⟩ := hmetrics hi
  have hnew := hspread.newBank hrange bt sym
  have hdp := vitStep_dp_toNat bt acc sym (hroom.trans k.len.isLt)
  refine ⟨halloc, hlen, fun _ => ?_, write_wf hwf .., write_lt hbound (hroom.trans_le (hlen (halloc hi))), fun _ => ?_⟩
  · rw [hdp]
    exact hroom
  · rw [hdp, vitStep_oldBank]
    exact ⟨hnew.renorm, hnew.range⟩

theorem Context.Inv.vitRun (h : k.Inv cfg) (hi : k.inited = true) (bt : Vector BranchRow 3)
    {syms : List (Vector Byte 3)} (hroom : k.dp.toNat + syms.length ≤ k.len.toNat) : (vitRun bt k syms).1.Inv cfg := by
  induction syms generalizing k with
  | nil => exact h
  | cons sym syms ih =>
    rw [List.length_cons] at hroom
    have hlt : k.dp.toNat < k.len.toNat := by omega
    have hdp := vitStep_dp_toNat bt 0#32 sym (hlt.trans k.len.isLt)
    rw [vitRun_cons]
    refine ih (h.vitStep hi hlt bt 0#32 sym) hi ?_
    rw [hdp, vitStep_len, Nat.add_assoc, Nat.add_comm 1]
    exact hroom

end Context

/-! ### Every step keeps the invariant -/

section State

variable {s t : State}

theorem State.Inv.setCtx (hs : s.Inv) {k : Context} (hk : k.Inv s.cfg) (c : Nat) : (s.setCtx c k).Inv := by
  obtain ⟨hwf, hparity, hlength, hctxs⟩ := hs
  refine ⟨hwf, hparity, List.length_set.trans hlength, fun l hl => ?_⟩
  rcases List.mem_or_eq_of_mem_set hl with hmem | rfl
  · exact hctxs l hmem
  · exact hk

/-- What a command does keeps the invariant; a response and the branch table are no part of it. -/
theorem Effect.inv {i : Instr} {r : Response} (he : Effect s i t r) (hs : s.Inv) : t.Inv := by
  cases he with
  | badHandle | noRoom | precond | setpoly | chainback | destroyNoop => exact hs
  | create len c k _ hlen _ hk =>
    have ⟨_, _, _, hctxs⟩ := hs
    exact hs.setCtx ((hctxs k (List.mem_of_getElem? hk)).allocate hlen) c
  | init h st k _ hv =>
    obtain ⟨-, -, ha⟩ := validCtx?_eq_some.mp hv
    exact hs.setCtx ((hs.context hv).start ha st) h.toNat
  | updateFailed h n k hv => exact hs.setCtx (hs.context hv).invalidate h.toNat
  | update h n k hv hready =>
    obtain ⟨hi, -, hroom, hpay⟩ := updateReady_iff.mp hready
    exact hs.setCtx ((hs.context hv).vitRun hi s.bt (by rwa [symbolTriples_length hpay])) h.toNat
  | destroy h k _ hv => exact hs.setCtx (hs.context hv).release h.toNat
  | rsEncode pad =>
    obtain ⟨hwf, -, hctxs⟩ := hs
    have ⟨⟨hnroots, _⟩, _⟩ := hwf
    exact ⟨hwf, rsParity_length hnroots s.payIn, hctxs⟩

/-- Reset gives a state of the invariant, whatever is still to be taken and was already answered (R40, R200). -/
theorem resetOf_inv {cfg : Config} (hcfg : cfg.wf) (pending : List Input) (responses : List Response) :
    ({ State.resetOf cfg with pending := pending, responses := responses } : State).Inv :=
  ⟨hcfg, List.length_replicate, List.length_replicate, fun _ hk => List.eq_of_mem_replicate hk ▸ Context.reset_inv cfg⟩

theorem step_inv (hs : s.Inv) (ht : step s = .next t) : t.Inv := by
  rcases hp : s.pending with _ | ⟨c | _, rest⟩
  · simp only [step, hp] at ht
    cases ht
    exact hs
  · obtain ⟨e, -, rfl⟩ | ⟨i, r, -, he⟩ := step_command hp ht
    · exact hs
    · exact he.inv hs
  · obtain ⟨hcfg, -⟩ := hs
    simp only [step, hp] at ht
    cases ht
    exact resetOf_inv hcfg rest s.responses

end State

/-! ### Every run keeps the invariant -/

/-- What every step of a machine keeps, every run keeps. -/
theorem run_keeps (M : Host.Core) {P : M.State → Prop} (hstep : ∀ s t, P s → M.step s = .next t → P t) {n : Nat}
    {s t : M.State} (hs : P s) (ht : M.run n s = .next t) : P t := by
  induction n generalizing s with
  | zero =>
    cases ht
    exact hs
  | succ n ih =>
    rw [Host.Core.run] at ht
    split at ht
    · exact ih (hstep _ _ hs ‹_›) ht
    · cases ht
    · cases ht

theorem run_inv {n : Nat} {s t : State} (hs : s.Inv) (ht : Sys2Proof.core.run n s = .next t) : t.Inv :=
  run_keeps Sys2Proof.core (P := State.Inv) (fun _ _ => step_inv) hs ht

/-! ### The metrics of reachable states (R212) -/

/-- No candidate sum of a bank in range exceeds 31136, so `sat16` does not clamp (R212 (c)). -/
theorem rangeOk.candidate_le {b : Bank} (hr : rangeOk b) (bt : Vector BranchRow 3) (sym : Vector Byte 3) (p : Fin 256)
    (d : Bool) : bankAt b p + transitionCost bt sym p d ≤ 31136 := by
  have hmetric := hr p
  have hcost := transitionCost_le bt sym p d
  omega

/-- Settles O21: a run from reset ends in a state of the invariant, which bounds the old bank of every initialised context. -/
theorem reachableMetricsNeverOverflow : Obligations.ReachableMetricsNeverOverflow := by
  intro cfg inputs n s hcfg hrun k hk hi
  obtain ⟨-, -, -, hctxs⟩ := run_inv (resetOf_inv hcfg inputs []) hrun
  obtain ⟨-, -, -, -, -, hmetrics⟩ := hctxs k hk
  obtain ⟨hspread, hrange⟩ := hmetrics hi
  refine ⟨hspread.total, fun p => ⟨bankAt_ge k.oldBank p, hrange p⟩, fun bt sym p d => ?_⟩
  have hcand := hrange.candidate_le bt sym p d
  exact ⟨hcand, sat16_of_le (by omega)⟩

end Sys2Proof.Machine

/-! Encoding and decoding undo each other: a word is its row and its operands, and the encoding of a command has both
(30_encoding.md R74 to R79). -/

namespace Sys2Proof

theorem matchesRow_encode (i : Instr) : MatchesRow (encode i) i := by
  cases i with
  | setpoly p0 p1 p2 => exact Laws.Encoding.setpoly p0 p1 p2
  | create len => exact Laws.Encoding.create len
  | init c st => exact Laws.Encoding.init c st
  | update c n => exact Laws.Encoding.update c n
  | chainback c n e => exact Laws.Encoding.chainback c n e
  | destroy c => exact Laws.Encoding.destroy c
  | rsEncode pad => exact Laws.Encoding.rsEncode pad

/-- The encoder puts every operand into the field it is read from (R74, R75); each field is cut out of the concatenation
at its own boundaries. -/
theorem readOperands_encode (i : Instr) : readOperands (encode i) i = i := by
  cases i with
  | setpoly | create | init | update | chainback | destroy | rsEncode =>
    rw [readOperands, encode]
    congr 1 <;> grind

/-- Settles O1: the encoding matches its command's row, and its fields are the operands. -/
theorem decodeAfterEncode : Obligations.DecodeAfterEncode := fun i =>
  decode_eq_ok_iff.mpr ⟨matchesRow_encode i, readOperands_encode i⟩

/-- Equal fields have equal bits. -/
theorem getLsbD_eq_of_field_eq {v w : Word} {start len j : Nat} (h : v.extractLsb' start len = w.extractLsb' start len)
    (hlo : start ≤ j) (hhi : j < start + len) : v.getLsbD j = w.getLsbD j := by
  have hbit : (v.extractLsb' start len).getLsbD (j - start) = (w.extractLsb' start len).getLsbD (j - start) := by rw [h]
  rwa [getLsbD_field _ _ _ _ (by omega), getLsbD_field _ _ _ _ (by omega), Nat.add_sub_cancel' hlo] at hbit

/-- Below OP every bit that is not a must-be-zero bit belongs to an operand (R74). -/
theorem getLsbD_eq_of_readOperands_eq {v w : Word} {i : Instr} (h : readOperands v i = readOperands w i) {j : Nat}
    (hj : j < 28) (hz : ¬ MustBeZeroBit i j) : v.getLsbD j = w.getLsbD j := by
  cases i with
  | setpoly p0 p1 p2 =>
    obtain ⟨h0, h1, h2⟩ := Instr.setpoly.inj h
    simp only [MustBeZeroBit] at hz
    obtain hlt | hlt | hlt : j < 9 ∨ (9 ≤ j ∧ j < 18) ∨ (18 ≤ j ∧ j < 27) := by omega
    · exact getLsbD_eq_of_field_eq h0 (Nat.zero_le j) (by omega)
    · exact getLsbD_eq_of_field_eq h1 hlt.1 hlt.2
    · exact getLsbD_eq_of_field_eq h2 hlt.1 hlt.2
  | create len =>
    have h0 := Instr.create.inj h
    simp only [MustBeZeroBit] at hz
    exact getLsbD_eq_of_field_eq h0 (Nat.zero_le j) (by omega)
  | init c st =>
    obtain ⟨hc, hst⟩ := Instr.init.inj h
    simp only [MustBeZeroBit] at hz
    by_cases hlt : j < 8
    · exact getLsbD_eq_of_field_eq hst (Nat.zero_le j) (by omega)
    · exact getLsbD_eq_of_field_eq hc (by omega) hj
  | update c n =>
    obtain ⟨hc, hn⟩ := Instr.update.inj h
    by_cases hlt : j < 24
    · exact getLsbD_eq_of_field_eq hn (Nat.zero_le j) (by omega)
    · exact getLsbD_eq_of_field_eq hc (by omega) hj
  | chainback c n e =>
    obtain ⟨hc, hn, he⟩ := Instr.chainback.inj h
    obtain hlt | hlt | hlt : j < 8 ∨ (8 ≤ j ∧ j < 24) ∨ 24 ≤ j := by omega
    · exact getLsbD_eq_of_field_eq he (Nat.zero_le j) (by omega)
    · exact getLsbD_eq_of_field_eq hn hlt.1 hlt.2
    · exact getLsbD_eq_of_field_eq hc hlt hj
  | destroy c =>
    have hc := Instr.destroy.inj h
    simp only [MustBeZeroBit] at hz
    exact getLsbD_eq_of_field_eq hc (by omega) hj
  | rsEncode pad =>
    have hp := Instr.rsEncode.inj h
    simp only [MustBeZeroBit] at hz
    exact getLsbD_eq_of_field_eq hp (Nat.zero_le j) (by omega)

/-- A legal word is determined by its row and its operands: OP and the must-be-zero bits are the row's. -/
theorem MatchesRow.ext {v w : Word} {i : Instr} (hv : MatchesRow v i) (hw : MatchesRow w i)
    (h : readOperands v i = readOperands w i) : v = w := by
  obtain ⟨hvop, hvz⟩ := matchesRow_iff.mp hv
  obtain ⟨hwop, hwz⟩ := matchesRow_iff.mp hw
  refine word_ext (hvop.trans hwop.symm) fun j hj => ?_
  by_cases hz : MustBeZeroBit i j
  · rw [hvz j hj hz, hwz j hj hz]
  · exact getLsbD_eq_of_readOperands_eq h hj hz

/-- Settles O2: the word and the encoding match one row with the same operands. -/
theorem encodeAfterDecode : Obligations.EncodeAfterDecode := by
  intro w i hd
  obtain ⟨hrow, hread⟩ := decode_eq_ok_iff.mp hd
  exact (matchesRow_encode i).ext hrow ((readOperands_encode i).trans hread.symm)

end Sys2Proof

/-! Which command writes what: BT and PARITY have one writer each, the fields of a context those of the table of R29; and reset,
the waiting block and the two engines (10_state.md R20 to R40, 40_rs_encoder.md R91, R97). -/

namespace Sys2Proof.Machine

open Sys2Proof

/-! ### One step (R13, R200) -/

/-- With nothing pending the block waits. -/
theorem step_idle {s : State} (h : s.pending = []) : step s = .next s := by
  simp [step, h]

/-- A step on a legal word takes the command off the channel and runs it. -/
theorem step_legal {s : State} {c : Command} {rest : List Input} {i : Instr} (h : s.pending = .command c :: rest)
    (hd : decode c.word = .ok i) : step s = exec i (s.accept c rest) := by
  simp [step, h, hd]

/-- Settles O7: `State.accept` sets the two fields that the statement writes out. -/
theorem stepRunsDecodedCommand : Obligations.StepRunsDecodedCommand :=
  ⟨fun _ _ _ _ hp hd => step_legal hp hd, fun _ hp => step_idle hp⟩

/-- A reset taken off the channel resets the block. -/
theorem step_reset {s : State} {cut : Option Command} {rest : List Input} (h : s.pending = .reset cut :: rest) :
    step s = .next (s.applyReset rest) := by
  simp [step, h]

theorem mem_replicate_reset {n : Nat} {k : Context} (hk : k ∈ List.replicate n Context.reset) :
    k.alloc = false ∧ k.inited = false := by
  obtain rfl := List.eq_of_mem_replicate hk
  exact ⟨rfl, rfl⟩

/-- Settles O12: the state of `applyReset` and that of `resetOf` hold NCTX contexts as `Context.reset` leaves them. -/
theorem resetClearsFlagsAndKeepsConfiguration : Obligations.ResetClearsFlagsAndKeepsConfiguration := by
  refine ⟨fun s cut rest hp => ?_, fun cfg => ?_⟩
  · exact ⟨_, step_reset hp, rfl, rfl, List.length_replicate, fun _ => mem_replicate_reset, rfl, rfl, rfl⟩
  · exact ⟨rfl, rfl, List.length_replicate, fun _ => mem_replicate_reset⟩

/-! ### The state outside the contexts (R20, R25, R27, R28) -/

section Block

variable {i : Instr} {s t : State} {r : Response}

/-- BT and BT_VALID have one writer, which sets BT_VALID. -/
theorem Effect.bt_eq_or_setpoly (he : Effect s i t r) :
    (t.bt = s.bt ∧ t.btValid = s.btValid) ∨ (t.btValid = true ∧ ∃ p0 p1 p2, i = .setpoly p0 p1 p2) := by
  cases he with
  | setpoly p0 p1 p2 => exact .inr ⟨rfl, p0, p1, p2, rfl⟩
  | badHandle | noRoom | precond | updateFailed | create | init | update | chainback | destroyNoop | destroy | rsEncode =>
    exact .inl ⟨rfl, rfl⟩

/-- PARITY has one writer. -/
theorem Effect.parity_eq_or_rsEncode (he : Effect s i t r) : t.parity = s.parity ∨ ∃ pad, i = .rsEncode pad := by
  cases he with
  | rsEncode pad => exact .inr ⟨pad, rfl⟩
  | badHandle | noRoom | precond | updateFailed | setpoly | create | init | update | chainback | destroyNoop | destroy =>
    exact .inl rfl

end Block

/-- Settles O13: waiting and an illegal word write nothing, reset may write all of it but the configuration, a command what its
effect allows. -/
theorem whoWritesBlockState : Obligations.WhoWritesBlockState := by
  intro s t ht
  rcases hp : s.pending with _ | ⟨c | cut, rest⟩
  · obtain rfl : s = t := Host.Outcome.next.inj ((step_idle hp).symm.trans ht)
    simp
  · obtain ⟨e, -, rfl⟩ | ⟨i, r, hd, he⟩ := step_command hp ht
    · simp
    · refine ⟨he.cfg_eq, fun hne => ?_, fun hne => ?_⟩
      · obtain ⟨hbt, hvalid⟩ | ⟨hvalid, p0, p1, p2, rfl⟩ := he.bt_eq_or_setpoly
        · exact (hne.elim (· hbt) (· hvalid)).elim
        · exact .inr ⟨hvalid, c, rest, p0, p1, p2, rfl, hd⟩
      · obtain ⟨pad, rfl⟩ := he.parity_eq_or_rsEncode.resolve_left hne
        exact .inr ⟨c, rest, pad, rfl, hd⟩
  · obtain rfl : s.applyReset rest = t := Host.Outcome.next.inj ((step_reset hp).symm.trans ht)
    exact ⟨rfl, fun _ => .inl ⟨cut, rest, rfl⟩, fun _ => .inl ⟨cut, rest, rfl⟩⟩

/-! ### The fields of a context (R29) -/

/-- What a command with response `r` can make of one context `k` (R114 to R118, R141, R145). -/
inductive ContextEffect (i : Instr) (r : Response) (k : Context) : Context → Prop where
  | same : ContextEffect i r k k
  | allocate (len : BitVec 24) (hi : i = .create len) : ContextEffect i r k (k.allocate len)
  | start (h : Handle) (st : TrellisState) (hi : i = .init h st) : ContextEffect i r k (k.start st)
  | run (h : Handle) (n : BitVec 24) (bt : Vector BranchRow 3) (syms : List (Vector Byte 3)) (hi : i = .update h n)
      (hr : r.status = .ok) : ContextEffect i r k (vitRun bt k syms).1
  | invalidate (h : Handle) (n : BitVec 24) (hi : i = .update h n) (hr : r.status = .errPrecond) :
      ContextEffect i r k k.invalidate
  | release (h : Handle) (hi : i = .destroy h) : ContextEffect i r k k.release

/-- Every effect of a command does one of these to each context. -/
theorem Effect.contextEffect {i : Instr} {s t : State} {r : Response} {c : Nat} {k l : Context} (he : Effect s i t r)
    (hk : s.ctxs[c]? = some k) (hl : t.ctxs[c]? = some l) : ContextEffect i r k l := by
  cases he with
  | badHandle | noRoom | precond | setpoly | chainback | destroyNoop | rsEncode =>
    cases hk.symm.trans hl
    exact .same
  | create len c' k' hp hlen hf hk' =>
    obtain ⟨rfl, rfl⟩ | ⟨-, rfl⟩ := getElem?_set_cases hk hl
    · cases hk.symm.trans hk'
      exact .allocate len rfl
    · exact .same
  | init h st k' hp hv =>
    obtain ⟨-, rfl, rfl⟩ | ⟨-, rfl⟩ := getElem?_set_validCtx? hv hk hl
    · exact .start h st rfl
    · exact .same
  | update h n k' hv =>
    obtain ⟨-, rfl, rfl⟩ | ⟨-, rfl⟩ := getElem?_set_validCtx? hv hk hl
    · exact .run h n _ _ rfl rfl
    · exact .same
  | updateFailed h n k' hv =>
    obtain ⟨-, rfl, rfl⟩ | ⟨-, rfl⟩ := getElem?_set_validCtx? hv hk hl
    · exact .invalidate h n rfl rfl
    · exact .same
  | destroy h k' hp hv =>
    obtain ⟨-, rfl, rfl⟩ | ⟨-, rfl⟩ := getElem?_set_validCtx? hv hk hl
    · exact .release h rfl
    · exact .same

section Written

variable {i : Instr} {r : Response} {k l : Context}

theorem ContextEffect.alloc_writers (h : ContextEffect i r k l) (hne : l.alloc ≠ k.alloc) :
    (∃ len, i = .create len) ∨ ∃ h, i = .destroy h := by
  cases h with
  | allocate len hi => exact .inl ⟨len, hi⟩
  | release h hi => exact .inr ⟨h, hi⟩
  | same | start | invalidate => exact absurd rfl hne
  | run => exact absurd (vitRun_alloc ..) hne

theorem ContextEffect.inited_writers (h : ContextEffect i r k l) (hne : l.inited ≠ k.inited) :
    (∃ h st, i = .init h st) ∨ (∃ len, i = .create len) ∨ (∃ h, i = .destroy h) ∨
      ∃ h n, i = .update h n ∧ r.status = .errPrecond := by
  cases h with
  | start h st hi => exact .inl ⟨h, st, hi⟩
  | allocate len hi => exact .inr (.inl ⟨len, hi⟩)
  | release h hi => exact .inr (.inr (.inl ⟨h, hi⟩))
  | invalidate h n hi hr => exact .inr (.inr (.inr ⟨h, n, hi, hr⟩))
  | same => exact absurd rfl hne
  | run => exact absurd (vitRun_inited ..) hne

theorem ContextEffect.len_writers (h : ContextEffect i r k l) (hne : l.len ≠ k.len) : ∃ len, i = .create len := by
  cases h with
  | allocate len hi => exact ⟨len, hi⟩
  | same | start | invalidate | release => exact absurd rfl hne
  | run => exact absurd (vitRun_len ..) hne

theorem ContextEffect.metrics_writers (h : ContextEffect i r k l) (hne : l.dp ≠ k.dp ∨ l.sel ≠ k.sel ∨ l.met ≠ k.met) :
    (∃ h st, i = .init h st) ∨ ∃ h n, i = .update h n ∧ r.status = .ok := by
  cases h with
  | start h st hi => exact .inl ⟨h, st, hi⟩
  | run h n bt syms hi hr => exact .inr ⟨h, n, hi, hr⟩
  | same | allocate | invalidate | release =>
    exact absurd hne (by simp [Context.allocate, Context.invalidate, Context.release])

theorem ContextEffect.hist_writers (h : ContextEffect i r k l) (hne : l.hist ≠ k.hist) :
    ∃ h n, i = .update h n ∧ r.status = .ok := by
  cases h with
  | run h n bt syms hi hr => exact ⟨h, n, hi, hr⟩
  | same | start | allocate | invalidate | release => exact absurd rfl hne

end Written

/-- Settles O14, field by field. -/
theorem whoWritesContextState : Obligations.WhoWritesContextState := by
  intro i s t r c k l ht hr hk hl
  have h := (exec_effect_of_responses ht hr).contextEffect hk hl
  exact ⟨h.alloc_writers, h.inited_writers, h.len_writers, h.metrics_writers, h.hist_writers⟩

/-! ### The two engines (R91, R97 (g)) -/

theorem Effect.rsEncode_sameViterbi {pad : Byte} {s t : State} {r : Response} (he : Effect s (.rsEncode pad) t r) :
    s.sameViterbi t := by
  cases he <;> exact ⟨rfl, rfl, rfl⟩

/-- RS_ENCODE's answer comes from the configuration and the payload alone. -/
theorem Effect.rsEncode_congr {pad : Byte} {s t u : State} {r : Response} (he : Effect s (.rsEncode pad) t r)
    (hcfg : u.cfg = s.cfg) (hpay : u.payIn = s.payIn) : ∃ v, Effect u (.rsEncode pad) v r := by
  have hlen : u.payLen = s.payLen := congrArg List.length hpay
  cases he with
  | badHandle _ h hi => cases hi
  | precond _ hp => exact ⟨_, .precond _ (by rwa [precondFails, hcfg, hlen])⟩
  | rsEncode _ h =>
    have hu := Effect.rsEncode (s := u) pad (by rwa [hcfg, hlen])
    rw [hcfg, hpay] at hu
    exact ⟨_, hu⟩

/-- Settles O22: what RS_ENCODE keeps and needs, and the one writer of PARITY. -/
theorem enginesShareNothing : Obligations.EnginesShareNothing := by
  refine ⟨fun pad s u t ht => ?_, fun i s t hi ht => ?_⟩
  · obtain ⟨r, he⟩ := exec_effect ht
    refine ⟨he.rsEncode_sameViterbi, fun hcfg hpay => ?_⟩
    obtain ⟨v, hv⟩ := he.rsEncode_congr hcfg hpay
    obtain ⟨-, -, ht'⟩ := he.answered
    obtain ⟨-, -, hv'⟩ := hv.answered
    exact ⟨v, r, hv.exec_eq, ht', hv'⟩
  · obtain ⟨r, he⟩ := exec_effect ht
    exact he.parity_eq_or_rsEncode.resolve_right fun ⟨pad, h⟩ => hi pad h

end Sys2Proof.Machine

/-! Zero, linearity and code words of the division: a step whose feedback is the sentinel only shifts, and a step is XOR of a
shift and of products, which distribute (40_rs_encoder.md R94 to R96). -/

namespace Sys2Proof.Machine

open Sys2Proof

/-! ### Zero feedback (R94, R96 (b)) -/

/-- A symbol equal to PARITY[0] gives no feedback: the step shifts a zero in (R222). -/
theorem rsStep_cons_self {cfg : Config} (hlog : cfg.logOk) (p : Byte) (P : List Byte) :
    rsStep cfg (p :: P) p = P ++ [0#8] := by
  have hfb : feedbackOf cfg (p :: P) p = A0 := (indexOf_eq_A0 hlog).mpr BitVec.xor_self
  simp [rsStep, hfb, addFeedback, newLast]

/-- The division takes the parity symbols in front of it away, one shift each. -/
theorem foldl_rsStep_append_self {cfg : Config} (hlog : cfg.logOk) (P Q : List Byte) :
    P.foldl (rsStep cfg) (P ++ Q) = Q ++ List.replicate P.length 0#8 := by
  induction P generalizing Q with
  | nil => simp
  | cons p P ih =>
    rw [List.cons_append, List.foldl_cons, rsStep_cons_self hlog, List.append_assoc, ih, List.append_assoc]
    rfl

/-- Zero symbols leave zero parity as it is. -/
theorem foldl_rsStep_replicate_zero {cfg : Config} (hwf : cfg.wf) (n : Nat) :
    (List.replicate n 0#8).foldl (rsStep cfg) (List.replicate cfg.nroots 0#8) = List.replicate cfg.nroots 0#8 := by
  obtain ⟨⟨hpos, -⟩, hlog, -⟩ := hwf
  obtain ⟨m, hm⟩ := Nat.exists_eq_add_of_le' hpos
  have hstep : rsStep cfg (List.replicate cfg.nroots 0#8) 0#8 = List.replicate cfg.nroots 0#8 := by
    rw [hm, List.replicate_succ, rsStep_cons_self hlog, ← List.replicate_succ', List.replicate_succ]
  induction n with
  | zero => rfl
  | succ n ih => rw [List.replicate_succ, List.foldl_cons, hstep, ih]

theorem rsParity_append (cfg : Config) (xs ys : List Byte) :
    rsParity cfg (xs ++ ys) = ys.foldl (rsStep cfg) (rsParity cfg xs) :=
  List.foldl_append

theorem rsParity_replicate_zero {cfg : Config} (hwf : cfg.wf) (n : Nat) :
    rsParity cfg (List.replicate n 0#8) = List.replicate cfg.nroots 0#8 :=
  foldl_rsStep_replicate_zero hwf n

/-- Settles O26: a block of zeros fits, and its parity is zero. -/
theorem rsZeroMessageHasZeroParity : Obligations.RsZeroMessageHasZeroParity := by
  intro pad s hwf hpad hpay
  have hlen : s.payLen = NN - s.cfg.nroots - pad.toNat := (congrArg List.length hpay).trans List.length_replicate
  have ⟨⟨_, hmax⟩, _⟩ := hwf
  have he := Effect.rsEncode pad ((rsEncode_checks_iff hmax).mp ⟨hpad, hlen⟩)
  refine ⟨_, he.exec_eq, ?_⟩
  rw [← rsParity_replicate_zero hwf (NN - s.cfg.nroots - pad.toNat), ← hpay]
  exact he.answered

/-- Settles O28: the parity symbols are taken away by their own division; leading zeros leave the start as it is. -/
theorem rsCodeWordHasZeroParity : Obligations.RsCodeWordHasZeroParity := by
  intro cfg hwf data
  have ⟨⟨hpos, _⟩, hlog, _⟩ := hwf
  refine ⟨?_, fun n => ?_⟩
  · have hself := foldl_rsStep_append_self hlog (rsParity cfg data) []
    rwa [List.append_nil, List.nil_append, rsParity_length hpos, ← rsParity_append] at hself
  · rw [rsParity_append, rsParity_replicate_zero hwf]
    rfl

/-! ### Linearity (R96 (c)) -/

/-- The product XORed in is the table product of the element whose logarithm FEEDBACK is (R90). -/
theorem feedbackTerm_indexOf {cfg : Config} (hlog : cfg.logOk) (x : Byte) (g : Nat) :
    feedbackTerm cfg (indexOf cfg x) g = tableTimes cfg (genpolyAt cfg g) x := by
  simp only [feedbackTerm, indexOf_eq_A0 hlog]
  rfl

/-- A step keeps NROOTS parity symbols (R25). -/
theorem rsStep_length_eq {cfg : Config} (hpos : 1 ≤ cfg.nroots) {P : List Byte} (hP : P.length = cfg.nroots) (d : Byte) :
    (rsStep cfg P d).length = cfg.nroots :=
  (rsStep_length cfg d (List.length_pos_iff.mp (hP ▸ hpos))).trans hP

/-- One step entry by entry, the last entry like the others: nothing is shifted into it. -/
theorem rsStep_getD_eq {cfg : Config} (hlog : cfg.logOk) {P : List Byte} (hP : P.length = cfg.nroots) (d : Byte) {j : Nat}
    (hj : j < cfg.nroots) :
    (rsStep cfg P d).getD j 0#8 =
      P.getD (j + 1) 0#8 ^^^ tableTimes cfg (genpolyAt cfg (cfg.nroots - (j + 1))) (d ^^^ P.getD 0 0#8) := by
  have hfb : feedbackOf cfg P d = indexOf cfg (d ^^^ P.getD 0 0#8) := by cases P <;> rfl
  rw [← feedbackTerm_indexOf hlog, ← hfb]
  by_cases hlast : j + 1 < P.length
  · exact rsStep_getD cfg P d j hlast
  · obtain rfl : j = P.length - 1 := by omega
    rw [rsStep_getD_last, List.getD_eq_default _ _ (by omega), BitVec.zero_xor]
    congr 1
    omega

/-- Bytewise XOR of two lists (R96 (c)). -/
def xorBytes (P Q : List Byte) : List Byte := List.zipWith (· ^^^ ·) P Q

theorem xorBytes_length {P Q : List Byte} (h : P.length = Q.length) : (xorBytes P Q).length = P.length := by
  rw [xorBytes, List.length_zipWith, h, Nat.min_self]

theorem xorBytes_getD {P Q : List Byte} (h : P.length = Q.length) (j : Nat) :
    (xorBytes P Q).getD j 0#8 = P.getD j 0#8 ^^^ Q.getD j 0#8 := by
  simp only [List.getD_eq_getElem?_getD, xorBytes, List.getElem?_zipWith]
  by_cases hj : j < P.length
  · rw [List.getElem?_eq_getElem hj, List.getElem?_eq_getElem (h ▸ hj)]
    rfl
  · rw [List.getElem?_eq_none (by omega), List.getElem?_eq_none (by omega)]
    rfl

theorem bytes_ext {P Q : List Byte} (hlen : P.length = Q.length) (h : ∀ j < P.length, P.getD j 0#8 = Q.getD j 0#8) :
    P = Q := by
  refine List.ext_getElem hlen fun j hj hj' => ?_
  have hget := h j hj
  rwa [List.getD_eq_getElem _ _ hj, List.getD_eq_getElem _ _ hj'] at hget

theorem genpolyAt_mem {cfg : Config} {g : Nat} (h : g < cfg.nroots) : genpolyAt cfg g ∈ cfg.genpoly := by
  rw [genpolyAt, List.getD_eq_getElem _ _ h]
  exact List.getElem_mem h

section Linear

variable {cfg : Config} (hwf : cfg.wf) (hdist : timesDistributes cfg)
include hwf hdist

/-- One step is linear: shift and products are. -/
theorem rsStep_xorBytes {P Q : List Byte} (hP : P.length = cfg.nroots) (hQ : Q.length = cfg.nroots) (x y : Byte) :
    rsStep cfg (xorBytes P Q) (x ^^^ y) = xorBytes (rsStep cfg P x) (rsStep cfg Q y) := by
  obtain ⟨⟨hpos, -⟩, hlog, -⟩ := hwf
  have hPQ : P.length = Q.length := hP.trans hQ.symm
  have hX : (xorBytes P Q).length = cfg.nroots := (xorBytes_length hPQ).trans hP
  have hPlen := rsStep_length_eq hpos hP x
  have hXlen := rsStep_length_eq hpos hX (x ^^^ y)
  have hlen : (rsStep cfg P x).length = (rsStep cfg Q y).length := hPlen.trans (rsStep_length_eq hpos hQ y).symm
  refine bytes_ext (hXlen.trans ((xorBytes_length hlen).trans hPlen).symm) fun j hj => ?_
  rw [hXlen] at hj
  have hsum : (x ^^^ y) ^^^ (P.getD 0 0#8 ^^^ Q.getD 0 0#8) = (x ^^^ P.getD 0 0#8) ^^^ (y ^^^ Q.getD 0 0#8) := by
    ac_rfl
  rw [xorBytes_getD hlen, rsStep_getD_eq hlog hX _ hj, rsStep_getD_eq hlog hP _ hj, rsStep_getD_eq hlog hQ _ hj,
    xorBytes_getD hPQ, xorBytes_getD hPQ, hsum, hdist _ (genpolyAt_mem (by omega))]
  ac_rfl

theorem foldl_rsStep_xorBytes {a b P Q : List Byte} (hab : a.length = b.length) (hP : P.length = cfg.nroots)
    (hQ : Q.length = cfg.nroots) :
    (xorBytes a b).foldl (rsStep cfg) (xorBytes P Q) = xorBytes (a.foldl (rsStep cfg) P) (b.foldl (rsStep cfg) Q) := by
  have ⟨⟨hpos, _⟩, _⟩ := hwf
  induction a generalizing b P Q with
  | nil =>
    obtain rfl := List.length_eq_zero_iff.mp hab.symm
    rfl
  | cons x a ih =>
    obtain _ | ⟨y, b⟩ := b
    · cases hab
    · have hrest := ih (Nat.succ.inj hab) (rsStep_length_eq hpos hP x) (rsStep_length_eq hpos hQ y)
      rwa [← rsStep_xorBytes hwf hdist hP hQ] at hrest

end Linear

/-- Settles O27: the steps are linear, and the zero start is the XOR of two zero starts. -/
theorem rsParityIsLinear : Obligations.RsParityIsLinear := by
  intro cfg hwf hdist a b hab
  have hstart : xorBytes (List.replicate cfg.nroots 0#8) (List.replicate cfg.nroots 0#8) =
      List.replicate cfg.nroots 0#8 := by
    simp [xorBytes]
  have hfold := foldl_rsStep_xorBytes hwf hdist hab (List.length_replicate (a := 0#8)) (List.length_replicate (a := 0#8))
  rwa [hstart] at hfold

end Sys2Proof.Machine

/-! The invariant holds at reset, is kept by every step and lets no step stop; and no command reads a value the spec leaves
unspecified: states that agree on the specified ones answer alike and go on agreeing (00_scope.md R11, 10_state.md R39, R40,
70_reset_and_hazards.md R205, R223). -/

namespace Sys2Proof.Machine

open Sys2Proof

/-! ### The invariant (R212) -/

/-- Settles O18. -/
theorem stepKeepsInvariant : Obligations.StepKeepsInvariant := fun _ _ => step_inv

/-- Settles O17: reset gives the invariant for every well-formed configuration, of which T2 is one. -/
theorem invariantHoldsAtReset : Obligations.InvariantHoldsAtReset :=
  ⟨fun _ hcfg => resetOf_inv hcfg [] [], resetOf_inv Config.t2_wf [] []⟩

/-! ### No step stops (R56, R223) -/

/-- LEN is within HIST_DEPTH for a context that a valid handle names (R31). -/
theorem State.Inv.len_le {s : State} {h : Handle} {k : Context} (hs : s.Inv) (hv : s.validCtx? h = some k) :
    k.len.toNat ≤ s.cfg.histDepth := by
  obtain ⟨-, hlen, -⟩ := hs.context hv
  obtain ⟨-, -, ha⟩ := validCtx?_eq_some.mp hv
  exact hlen ha

theorem exists_effect_update {s : State} {h : Handle} {k : Context} (hs : s.Inv) (hv : s.validCtx? h = some k)
    (n : BitVec 24) : ∃ t r, Effect s (.update h n) t r := by
  rcases hr : s.updateReady k n with _ | _
  · exact ⟨_, _, .updateFailed h n k hv hr⟩
  · obtain ⟨-, -, hroom, -⟩ := updateReady_iff.mp hr
    exact ⟨_, _, .update h n k hv hr (histInRange_iff.mpr (.inr (hroom.trans (hs.len_le hv))))⟩

theorem exists_effect_chainback {s : State} {h : Handle} {k : Context} (hs : s.Inv) (hv : s.validCtx? h = some k)
    (n : BitVec 16) (e : TrellisState) : ∃ t r, Effect s (.chainback h n e) t r := by
  rcases hr : s.chainbackReady k n with _ | _
  · exact ⟨_, _, .precond _ ⟨k, hv, hr⟩⟩
  · obtain ⟨-, hi, hroom⟩ := chainbackReady_iff.mp hr
    obtain ⟨-, -, hdp, -⟩ := hs.context hv
    have hrange : TAIL + n.toNat ≤ s.cfg.histDepth :=
      (Nat.add_comm ..).trans_le (hroom.trans ((hdp hi).trans (hs.len_le hv)))
    exact ⟨_, _, .chainback h n e k hv hr (histInRange_iff.mpr (.inr hrange))⟩

/-- From a state of the invariant every command has an effect: its history indexes are in range. -/
theorem State.Inv.exists_effect {s : State} (hs : s.Inv) (i : Instr) : ∃ t r, Effect s i t r := by
  by_cases hbad : ∃ h, checkedHandle i = some h ∧ s.validCtx? h = none
  · obtain ⟨h, hi, hv⟩ := hbad
    exact ⟨_, _, .badHandle i h hi hv⟩
  push Not at hbad
  by_cases hshape : ¬ i.shapeOk s.cfg s.payLen
  · obtain ⟨t, ht⟩ := effect_of_wrong_payload hshape hbad
    exact ⟨t, _, ht⟩
  rw [not_not] at hshape
  cases i with
  | setpoly p0 p1 p2 => exact ⟨_, _, .setpoly p0 p1 p2 hshape⟩
  | create len =>
    by_cases hlen : len.toNat ≤ s.cfg.histDepth
    · rcases hf : s.freeCtx? with _ | c
      · exact ⟨_, _, .noRoom len hshape (.inr hf)⟩
      · obtain ⟨-, ⟨k, hk, -⟩, -⟩ := freeCtx?_eq_some.mp hf
        exact ⟨_, _, .create len c k hshape hlen hf hk⟩
    · exact ⟨_, _, .noRoom len hshape (.inl (Nat.not_le.mp hlen))⟩
  | init h st =>
    obtain ⟨k, hv⟩ := Option.ne_none_iff_exists'.mp (hbad h rfl)
    exact ⟨_, _, .init h st k hshape hv⟩
  | update h n =>
    obtain ⟨k, hv⟩ := Option.ne_none_iff_exists'.mp (hbad h rfl)
    exact exists_effect_update hs hv n
  | chainback h n e =>
    obtain ⟨k, hv⟩ := Option.ne_none_iff_exists'.mp (hbad h rfl)
    exact exists_effect_chainback hs hv n e
  | destroy h =>
    rcases hv : s.validCtx? h with _ | k
    · exact ⟨_, _, .destroyNoop h hshape hv⟩
    · exact ⟨_, _, .destroy h k hshape hv⟩
  | rsEncode pad => exact ⟨_, _, .rsEncode pad hshape⟩

/-- A step on a legal word is the effect of its command. -/
theorem Effect.step_eq {s t : State} {c : Command} {rest : List Input} {i : Instr} {r : Response}
    (hp : s.pending = .command c :: rest) (hd : decode c.word = .ok i) (he : Effect (s.accept c rest) i t r) :
    step s = .next t :=
  (step_legal hp hd).trans he.exec_eq

/-- Settles O19: taking a command off the channel keeps the invariant, from which every command has an effect. -/
theorem invariantStatesNeverStop : Obligations.InvariantStatesNeverStop := by
  intro s hs
  rcases hp : s.pending with _ | ⟨c | cut, rest⟩
  · exact ⟨s, step_idle hp⟩
  · rcases hd : decode c.word with e | i
    · exact ⟨_, step_illegal hp hd⟩
    · have haccept : (s.accept c rest).Inv := hs
      obtain ⟨t, r, he⟩ := haccept.exists_effect i
      exact ⟨t, he.step_eq hp hd⟩
  · exact ⟨_, step_reset hp⟩

/-! ### What CHAINBACK reads (R162, R164) -/

/-- A walk step reads one bit of its record. -/
theorem chainStep_congr {hist other : Memory} {n : Nat} (h : hist.read n = other.read n) (st : TrellisState) :
    chainStep hist n st = chainStep other n st := by
  rw [chainStep, chainStep, Memory.readBit, Memory.readBit, h]

/-- The walk for n bits reads the records 8 to n + 7. -/
theorem chainWalk_congr {hist other : Memory} {n : Nat} (h : ∀ r, 8 ≤ r → r < n + 8 → hist.read r = other.read r)
    (st : TrellisState) (out : List Byte) : chainWalk hist n st out = chainWalk other n st out := by
  induction n generalizing st out with
  | zero => rfl
  | succ n ih =>
    have hstep := chainStep_congr (h (n + TAIL) (Nat.le_add_left ..) (Nat.add_lt_add_right (Nat.lt_succ_self n) 8)) st
    rw [chainWalk, chainWalk, hstep]
    exact ih (fun r hlo hhi => h r hlo (by omega)) _ _

/-- Settles O48. -/
theorem chainbackReadsOnlyItsRecords : Obligations.ChainbackReadsOnlyItsRecords :=
  fun _ _ _ _ h => chainWalk_congr h _ _

/-! ### Contexts that agree (R39) -/

section Agree

variable {k l : Context}

theorem Context.agree.refl (k : Context) : k.agree k := ⟨rfl, rfl, fun _ => rfl, fun _ => ⟨rfl, rfl, rfl, fun _ _ => rfl⟩⟩

/-- CREATE and DESTROY specify the flags, and LEN where it is specified (R114, R118). -/
theorem agree_allocate (k l : Context) (len : BitVec 24) : (k.allocate len).agree (l.allocate len) :=
  ⟨rfl, rfl, fun _ => rfl, nofun⟩

theorem agree_release (k l : Context) : k.release.agree l.release := ⟨rfl, rfl, nofun, nofun⟩

theorem Context.agree.invalidate (h : k.agree l) : k.invalidate.agree l.invalidate := by
  obtain ⟨halloc, -, hlen, -⟩ := h
  exact ⟨halloc, rfl, hlen, nofun⟩

/-- INIT specifies the cursor, the selector and the old bank; no record lies below DP = 0 (R116). -/
theorem Context.agree.start (h : k.agree l) (st : TrellisState) : (k.start st).agree (l.start st) := by
  obtain ⟨halloc, -, hlen, -⟩ := h
  refine ⟨halloc, rfl, hlen, fun _ => ⟨rfl, rfl, ?_, fun t ht => absurd ht (Nat.not_lt_zero t)⟩⟩
  rw [start_oldBank, start_oldBank]

/-- A step writes the record at DP alike, since it reads the old bank only (R140). -/
theorem Context.agree.vitStep (h : k.agree l) (hi : k.inited = true) (hk : k.hist.wf) (hl : l.hist.wf)
    (bt : Vector BranchRow 3) (acc : Word) (sym : Vector Byte 3) :
    (vitStep bt (k, acc) sym).1.agree (vitStep bt (l, acc) sym).1 := by
  obtain ⟨halloc, hinit, hlen, hspec⟩ := h
  obtain ⟨hdp, hsel, hbank, hread⟩ := hspec hi
  refine ⟨halloc, hinit, hlen, fun _ => ⟨?_, ?_, ?_, fun t ht => ?_⟩⟩
  · simp only [vitStep_dp, hdp]
  · simp only [vitStep_sel, hsel]
  · simp only [vitStep_oldBank, hbank]
  · rw [vitStep_hist, vitStep_hist, hdp, hbank]
    by_cases hlast : t = k.dp.toNat
    · rw [hlast, read_write_same hl, read_write_same hk]
    · have hle : (k.dp + 1#25).toNat ≤ k.dp.toNat + 1 := (BitVec.toNat_add ..).trans_le (Nat.mod_le ..)
      have ht' : t < k.dp.toNat := by
        have : t < (k.dp + 1#25).toNat := ht
        omega
      rw [read_write_ne _ _ hlast, read_write_ne _ _ hlast, hread t ht']

/-- A run keeps agreement and accumulates the same ACC. -/
theorem Context.agree.vitRun (h : k.agree l) (hi : k.inited = true) (hk : k.hist.wf) (hl : l.hist.wf)
    (bt : Vector BranchRow 3) (syms : List (Vector Byte 3)) :
    (vitRun bt k syms).1.agree (vitRun bt l syms).1 ∧ (vitRun bt l syms).2 = (vitRun bt k syms).2 := by
  induction syms generalizing k l with
  | nil => exact ⟨h, rfl⟩
  | cons sym syms ih =>
    have ⟨_, _, _, hspec⟩ := h
    obtain ⟨-, -, hbank, -⟩ := hspec hi
    obtain ⟨hctx, hacc⟩ := ih (h.vitStep hi hk hl bt 0#32 sym) hi (write_wf hk ..) (write_wf hl ..)
    rw [vitRun_cons, vitRun_cons, hacc, hbank]
    exact ⟨hctx, rfl⟩

/-- CHAINBACK's answer comes from the old bank and the records below DP (R161, R205). -/
theorem Context.agree.chainback_answer (h : k.agree l) (hi : k.inited = true) {n : Nat} (hroom : n + 8 ≤ k.dp.toNat)
    (e : TrellisState) : endMetric l e = endMetric k e ∧ chainOutput l.hist n e = chainOutput k.hist n e := by
  obtain ⟨-, -, -, hspec⟩ := h
  obtain ⟨-, -, hbank, hread⟩ := hspec hi
  exact ⟨by rw [endMetric, hbank, endMetric], chainWalk_congr (fun r _ hhi => hread r (hhi.trans_le hroom)) _ _⟩

end Agree

/-! ### States that agree -/

section AgreeState

variable {s u : State} {k l : Context}

theorem getElem?_of_forall₂ {R : Context → Context → Prop} {xs ys : List Context} (h : List.Forall₂ R xs ys) {c : Nat}
    (hk : xs[c]? = some k) : ∃ l, ys[c]? = some l ∧ R k l := by
  obtain ⟨hc, rfl⟩ := List.getElem?_eq_some_iff.mp hk
  have hc' : c < ys.length := h.length_eq ▸ hc
  exact ⟨ys[c], List.getElem?_eq_getElem hc', h.get hc hc'⟩

theorem forall₂_set {xs ys : List Context} (h : List.Forall₂ Context.agree xs ys) (hkl : k.agree l) (c : Nat) :
    List.Forall₂ Context.agree (xs.set c k) (ys.set c l) := by
  induction h generalizing c with
  | nil => exact .nil
  | cons hxy hrest ih =>
    cases c with
    | zero => exact .cons hkl hrest
    | succ c => exact .cons hxy (ih c)

theorem State.agree.send (h : s.agree u) (r : Response) : (s.send r).agree (u.send r) := by
  obtain ⟨hcfg, hpend, hresp, hrest⟩ := h
  exact ⟨hcfg, hpend, congrArg (· ++ [r]) hresp, hrest⟩

theorem State.agree.accept (h : s.agree u) (c : Command) (rest : List Input) : (s.accept c rest).agree (u.accept c rest) := by
  obtain ⟨hcfg, -, hrest⟩ := h
  exact ⟨hcfg, rfl, hrest⟩

theorem State.agree.setBt (h : s.agree u) (bt : Vector BranchRow 3) : (s.setBt bt).agree (u.setBt bt) := by
  obtain ⟨hcfg, hpend, hresp, -, -, hctxs⟩ := h
  exact ⟨hcfg, hpend, hresp, rfl, fun _ => rfl, hctxs⟩

theorem State.agree.setCtx (h : s.agree u) (hkl : k.agree l) (c : Nat) : (s.setCtx c k).agree (u.setCtx c l) := by
  obtain ⟨hcfg, hpend, hresp, hvalid, hbt, hctxs⟩ := h
  exact ⟨hcfg, hpend, hresp, hvalid, hbt, forall₂_set hctxs hkl c⟩

/-- PARITY is never read (R25, R39). -/
theorem State.agree.setParity (h : s.agree u) (p q : List Byte) :
    ({ s with parity := p } : State).agree { u with parity := q } := h

/-- Reset leaves every context as `Context.reset` says and BT unspecified (R40). -/
theorem State.agree.applyReset (h : s.agree u) (rest : List Input) : (s.applyReset rest).agree (u.applyReset rest) := by
  obtain ⟨hcfg, -, hresp, -⟩ := h
  refine ⟨hcfg, rfl, hresp, rfl, nofun, ?_⟩
  rw [applyReset_ctxs, applyReset_ctxs, hcfg]
  exact List.forall₂_same.mpr fun k _ => .refl k

/-- A handle valid in one is valid in the other, and names contexts that agree (R112). -/
theorem State.agree.validCtx?_some (h : s.agree u) {c : Handle} (hv : s.validCtx? c = some k) :
    ∃ l, u.validCtx? c = some l ∧ k.agree l := by
  obtain ⟨hcfg, -, -, -, -, hctxs⟩ := h
  obtain ⟨hlt, hk, ha⟩ := validCtx?_eq_some.mp hv
  obtain ⟨l, hl, hkl⟩ := getElem?_of_forall₂ hctxs hk
  have ⟨halloc, _⟩ := hkl
  exact ⟨l, validCtx?_eq_some.mpr ⟨hcfg ▸ hlt, hl, halloc.trans ha⟩, hkl⟩

theorem map_alloc_of_forall₂ {xs ys : List Context} (h : List.Forall₂ Context.agree xs ys) :
    ys.map Context.alloc = xs.map Context.alloc := by
  induction h with
  | nil => rfl
  | cons hxy _ ih =>
    obtain ⟨halloc, -⟩ := hxy
    rw [List.map_cons, List.map_cons, halloc, ih]

/-- The free context is read off the ALLOC flags. -/
theorem freeCtx?_eq_map (s : State) : s.freeCtx? = ((s.ctxs.map Context.alloc).take s.cfg.nctx).findIdx? (!·) := by
  rw [State.freeCtx?, ← List.map_take, List.findIdx?_map]
  rfl

theorem State.agree.freeCtx? (h : s.agree u) : u.freeCtx? = s.freeCtx? := by
  obtain ⟨hcfg, -, -, -, -, hctxs⟩ := h
  rw [freeCtx?_eq_map, freeCtx?_eq_map, map_alloc_of_forall₂ hctxs, hcfg]

theorem State.agree.validCtx?_none (h : s.agree u) {c : Handle} (hv : s.validCtx? c = none) : u.validCtx? c = none := by
  obtain ⟨hcfg, -, -, -, -, hctxs⟩ := h
  refine validCtx?_eq_none.mpr ((validCtx?_eq_none.mp hv).imp (hcfg ▸ ·) fun hfree l hl => ?_)
  obtain ⟨k, hk, halloc, -⟩ := getElem?_of_forall₂ hctxs.flip hl
  exact halloc.trans (hfree k hk)

/-- UPDATE's checks look at specified values only (R141). -/
theorem State.agree.updateReady (h : s.agree u) (hpay : u.payIn = s.payIn) (hkl : k.agree l) (ha : k.alloc = true)
    (n : BitVec 24) : u.updateReady l n = s.updateReady k n := by
  obtain ⟨-, -, -, hvalid, -⟩ := h
  obtain ⟨-, hinit, hlen, hspec⟩ := hkl
  have hpl : u.payLen = s.payLen := congrArg List.length hpay
  rw [State.updateReady, State.updateReady, hvalid, hinit, hlen ha, hpl]
  rcases hi : k.inited with _ | _
  · rfl
  · obtain ⟨hdp, -⟩ := hspec hi
    rw [hdp]

/-- CHAINBACK's checks look at specified values only (R161). -/
theorem Context.agree.chainbackReady (hkl : k.agree l) (hpay : u.payIn = s.payIn) (n : BitVec 16) :
    u.chainbackReady l n = s.chainbackReady k n := by
  obtain ⟨-, hinit, -, hspec⟩ := hkl
  have hpl : u.payLen = s.payLen := congrArg List.length hpay
  rw [State.chainbackReady, State.chainbackReady, hinit, hpl]
  rcases hi : k.inited with _ | _
  · simp
  · obtain ⟨hdp, -⟩ := hspec hi
    rw [hdp]

/-- The ERR_PRECOND causes look at specified values only (R178). -/
theorem State.agree.precondFails (h : s.agree u) (hpay : u.payIn = s.payIn) {i : Instr} (hp : precondFails s i) :
    precondFails u i := by
  have ⟨hcfg, _⟩ := h
  have hpl : u.payLen = s.payLen := congrArg List.length hpay
  cases i with
  | setpoly | create | destroy => exact hpl.trans_ne hp
  | init c st =>
    obtain ⟨hp, k, hv⟩ := hp
    obtain ⟨l, hl, -⟩ := h.validCtx?_some hv
    exact ⟨hpl.trans_ne hp, l, hl⟩
  | update => exact hp
  | chainback c n e =>
    obtain ⟨k, hv, hr⟩ := hp
    obtain ⟨l, hl, hkl⟩ := h.validCtx?_some hv
    exact ⟨l, hl, (hkl.chainbackReady hpay n).trans hr⟩
  | rsEncode pad => rwa [Machine.precondFails, hcfg, hpl]

end AgreeState

/-! ### Commands and steps on states that agree -/

/-- UPDATE's checks specify what its run reads: BT, the cursor and the old bank. -/
theorem State.agree.effect_update {s u : State} (h : s.agree u) (hs : s.Inv) (hu : u.Inv) (hpay : u.payIn = s.payIn)
    {c : Handle} {n : BitVec 24} {k : Context} (hv : s.validCtx? c = some k) (hr : s.updateReady k n = true)
    (hh : histInRange s.cfg k.dp.toNat n.toNat = true) :
    ∃ v, Effect u (.update c n) v ⟨.ok, (vitRun s.bt k (symbolTriples s.payIn)).2, []⟩ ∧
      ((s.setCtx c.toNat (vitRun s.bt k (symbolTriples s.payIn)).1).send
        ⟨.ok, (vitRun s.bt k (symbolTriples s.payIn)).2, []⟩).agree v := by
  obtain ⟨l, hl, hkl⟩ := h.validCtx?_some hv
  obtain ⟨-, -, ha⟩ := validCtx?_eq_some.mp hv
  obtain ⟨hi, hvalid, -⟩ := updateReady_iff.mp hr
  have ⟨hcfg, _, _, _, hbt, _⟩ := h
  have ⟨_, _, _, hspec⟩ := hkl
  obtain ⟨hdp, -⟩ := hspec hi
  obtain ⟨-, -, -, hkwf, -⟩ := hs.context hv
  obtain ⟨-, -, -, hlwf, -⟩ := hu.context hl
  obtain ⟨hctx, hacc⟩ := hkl.vitRun hi hkwf hlwf s.bt (symbolTriples s.payIn)
  have he := Effect.update c n l hl ((h.updateReady hpay hkl ha n).trans hr) (by rwa [hcfg, hdp])
  rw [hbt hvalid, hpay, hacc] at he
  exact ⟨_, he, (h.setCtx hctx c.toNat).send _⟩

/-- A command reads no unspecified value: its answer is the same and the states still agree. -/
theorem Effect.agree {i : Instr} {s t u : State} {r : Response} (he : Effect s i t r) (h : s.agree u) (hs : s.Inv)
    (hu : u.Inv) (hpay : u.payIn = s.payIn) : ∃ v, Effect u i v r ∧ t.agree v := by
  have ⟨hcfg, _⟩ := h
  have hpl : u.payLen = s.payLen := congrArg List.length hpay
  cases he with
  | badHandle i c hi hv => exact ⟨_, .badHandle i c hi (h.validCtx?_none hv), h.send _⟩
  | noRoom len hp hn =>
    exact ⟨_, .noRoom len (hpl.trans hp) (by rwa [hcfg, h.freeCtx?]), h.send _⟩
  | precond i hp => exact ⟨_, .precond i (h.precondFails hpay hp), h.send _⟩
  | updateFailed c n k hv hr =>
    obtain ⟨l, hl, hkl⟩ := h.validCtx?_some hv
    obtain ⟨-, -, ha⟩ := validCtx?_eq_some.mp hv
    exact ⟨_, .updateFailed c n l hl ((h.updateReady hpay hkl ha n).trans hr), (h.setCtx hkl.invalidate _).send _⟩
  | setpoly p0 p1 p2 hp => exact ⟨_, .setpoly p0 p1 p2 (hpl.trans hp), (h.setBt _).send _⟩
  | create len c k hp hlen hf hk =>
    have ⟨_, _, _, _, _, hctxs⟩ := h
    obtain ⟨l, hl, -⟩ := getElem?_of_forall₂ hctxs hk
    exact ⟨_, .create len c l (hpl.trans hp) (hcfg ▸ hlen) (h.freeCtx?.trans hf) hl,
      (h.setCtx (agree_allocate k l len) c).send _⟩
  | init c st k hp hv =>
    obtain ⟨l, hl, hkl⟩ := h.validCtx?_some hv
    exact ⟨_, .init c st l (hpl.trans hp) hl, (h.setCtx (hkl.start st) _).send _⟩
  | update c n k hv hr hh => exact h.effect_update hs hu hpay hv hr hh
  | chainback c n e k hv hr hh =>
    obtain ⟨l, hl, hkl⟩ := h.validCtx?_some hv
    obtain ⟨-, hi, hroom⟩ := chainbackReady_iff.mp hr
    have he := Effect.chainback c n e l hl ((hkl.chainbackReady hpay n).trans hr) (hcfg ▸ hh)
    obtain ⟨hmetric, hout⟩ := hkl.chainback_answer hi hroom e
    rw [hmetric, hout] at he
    exact ⟨_, he, h.send _⟩
  | destroyNoop c hp hv => exact ⟨_, .destroyNoop c (hpl.trans hp) (h.validCtx?_none hv), h.send _⟩
  | destroy c k hp hv =>
    obtain ⟨l, hl, -⟩ := h.validCtx?_some hv
    exact ⟨_, .destroy c l (hpl.trans hp) hl, (h.setCtx (agree_release k l) _).send _⟩
  | rsEncode pad hfill =>
    have he := Effect.rsEncode (s := u) pad (by rwa [hcfg, hpl])
    have hout : rsParity u.cfg u.payIn = rsParity s.cfg s.payIn := by rw [hcfg, hpay]
    rw [hout] at he
    exact ⟨_, he, (h.setParity _ _).send _⟩

/-- Settles O20: the states agree on the next input, and its reset, its answer or its effect keeps them so. -/
theorem unspecifiedValuesAreNeverObserved : Obligations.UnspecifiedValuesAreNeverObserved := by
  intro s u t hs hu h ht
  have ⟨_, hpend, _⟩ := h
  rcases hp : s.pending with _ | ⟨c | cut, rest⟩
  · obtain rfl : s = t := Host.Outcome.next.inj ((step_idle hp).symm.trans ht)
    exact ⟨u, step_idle (hpend.trans hp), h⟩
  · have haccept := h.accept c rest
    obtain ⟨e, hd, rfl⟩ | ⟨i, r, hd, he⟩ := step_command hp ht
    · exact ⟨_, step_illegal (hpend.trans hp) hd, haccept.send _⟩
    · obtain ⟨v, hv, hagree⟩ := he.agree haccept hs hu rfl
      exact ⟨v, hv.step_eq (hpend.trans hp) hd, hagree⟩
  · obtain rfl : s.applyReset rest = t := Host.Outcome.next.inj ((step_reset hp).symm.trans ht)
    exact ⟨_, step_reset (hpend.trans hp), h.applyReset rest⟩

end Sys2Proof.Machine

/-! The survivor path: the decisions of a run, followed back from an end state, are the input bits of a least-cost path, and the
walk of CHAINBACK reads its first bits off them (42_viterbi_update.md R144, 43_chainback.md R160 to R166). -/

namespace Sys2Proof.Machine

open Sys2Proof

/-! ### Following the decisions back (R160, R163) -/

/-- The state the walk from `e` back over the records first + steps - 1 down to first ends in. -/
def survivorState (hist : Memory) (e : TrellisState) : (steps first : Nat) → TrellisState
  | 0, _ => e
  | steps + 1, first => chainStep hist first (survivorState hist e steps (first + 1))

/-- The input bits of that walk's transitions, in time order: each is the newest bit of the state it enters (R130). -/
def survivorBits (hist : Memory) (e : TrellisState) : (steps first : Nat) → List Bool
  | 0, _ => []
  | steps + 1, first =>
    (survivorState hist e steps (first + 1)).getLsbD 0 :: survivorBits hist e steps (first + 1)

@[simp] theorem survivorBits_length (hist : Memory) (e : TrellisState) (steps first : Nat) :
    (survivorBits hist e steps first).length = steps := by
  induction steps generalizing first with
  | zero => rfl
  | succ steps ih => rw [survivorBits, List.length_cons, ih]

theorem survivorBits_getElem? (hist : Memory) (e : TrellisState) {steps j : Nat} (first : Nat) (hj : j < steps) :
    (survivorBits hist e steps first)[j]? = some ((survivorState hist e (steps - (j + 1)) (first + (j + 1))).getLsbD 0) := by
  induction steps generalizing first j with
  | zero => exact absurd hj (Nat.not_lt_zero j)
  | succ steps ih =>
    rw [survivorBits]
    cases j with
    | zero => rfl
    | succ j => rw [List.getElem?_cons_succ, ih _ (by omega), Nat.add_sub_add_right, Nat.add_assoc, Nat.add_comm 1]

/-- A bit that enters at the newest place has moved up by j after j transitions (R164). -/
theorem getLsbD_survivorState (hist : Memory) (e : TrellisState) {j : Nat} (hj : j < 8) (steps first : Nat) :
    (survivorState hist e (steps + j) first).getLsbD 0 = (survivorState hist e steps (first + j)).getLsbD j := by
  induction j generalizing steps with
  | zero => rfl
  | succ j ih =>
    rw [Nat.add_comm j 1, ← Nat.add_assoc, ih (by omega) (steps + 1), survivorState, getLsbD_chainStep _ _ _ _ (by omega),
      if_neg (by omega), Nat.add_comm 1 j, Nat.add_assoc]

/-- The walk of CHAINBACK is the end of this one: it stops at record 8 (R162). -/
theorem walkState_eq_survivorState (hist : Memory) (e : TrellisState) (steps n : Nat) :
    walkState hist (n + steps) e n = survivorState hist e steps (n + 8) := by
  induction steps generalizing n with
  | zero => exact walkState_start hist n e
  | succ steps ih =>
    have hrest := ih (n + 1)
    rw [show n + 1 + steps = n + (steps + 1) by omega] at hrest
    rw [walkState_step hist e (by omega), hrest, survivorState, Nat.add_right_comm]

/-- The decoded bits are the first input bits of the survivor: bit n is in place 7 of S after the step for it (R164, R165). -/
theorem decodedBit_eq_survivorBit (hist : Memory) (e : TrellisState) {nbits n : Nat} (hn : n < nbits) :
    some (decodedBit (chainOutput hist nbits e) n) = (survivorBits hist e (nbits + 8) 0)[n]? := by
  obtain ⟨steps, rfl⟩ := Nat.exists_eq_add_of_le hn.le
  have hwalk := walkStateHoldsTheNextBits hist (n + steps) e n 0 (by decide) hn
  have hbit := getLsbD_survivorState hist e (j := 7) (by decide) steps (n + 1)
  rw [walkState_eq_survivorState] at hwalk
  rw [survivorBits_getElem? hist e 0 (by omega), show n + steps + 8 - (n + 1) = steps + 7 by omega, Nat.zero_add, hbit]
  exact congrArg some hwalk.symm

/-! ### One transition of the survivor (R130, R135) -/

theorem isOdd_stateIndex (st : TrellisState) : isOdd (stateIndex st) = st.getLsbD 0 := by
  revert st
  decide

/-- A decision of a step names the predecessor whose candidate was taken. -/
theorem stateIndex_chainStep {hist : Memory} {d : Nat} {bt : Vector BranchRow 3} {sym : Vector Byte 3} {old : Bank}
    (hread : hist.read d = decisionRecord bt sym old) (st : TrellisState) :
    stateIndex (chainStep hist d st) =
      if highCand bt sym old (stateIndex st) < lowCand bt sym old (stateIndex st) then highOf (stateIndex st)
      else lowOf (stateIndex st) := by
  have hbit := getLsbD_decisionRecord bt sym old (stateIndex st)
  have hval := toNat_chainStep hist d st
  rw [hread, show st.toNat = (stateIndex st).val from rfl, hbit] at hval
  split_ifs with hlt
  · rw [decide_eq_true hlt] at hval
    exact Fin.ext hval
  · rw [decide_eq_false hlt] at hval
    exact Fin.ext hval

section Survivor

variable {bt : Vector BranchRow 3} {sym : Vector Byte 3} {old : Bank} {hist : Memory} {d : Nat}

theorem nextState_chainStep (hread : hist.read d = decisionRecord bt sym old) (st : TrellisState) :
    nextState (stateIndex (chainStep hist d st)) (st.getLsbD 0) = stateIndex st := by
  rw [stateIndex_chainStep hread, ← isOdd_stateIndex]
  split_ifs
  · exact nextState_highOf _
  · exact nextState_lowOf _

/-- The new metric of a state is the cost of the way its decision names. -/
theorem rangeOk.newBank_chainStep (hr : rangeOk old) (hread : hist.read d = decisionRecord bt sym old) (st : TrellisState) :
    bankAt (newBank bt sym old) (stateIndex st) =
      bankAt old (stateIndex (chainStep hist d st)) +
        transitionCost bt sym (stateIndex (chainStep hist d st)) (st.getLsbD 0) := by
  obtain ⟨hlow, hhigh⟩ := hr.cands bt sym (stateIndex st)
  rw [bankAt_newBank_eq_ite, stateIndex_chainStep hread, ← isOdd_stateIndex]
  split_ifs
  · exact hhigh
  · exact hlow

end Survivor

/-! ### The survivor of a run (R144) -/

/-- Later steps of a run leave the first record, which holds the decisions on the old bank. -/
theorem vitRun_cons_read (bt : Vector BranchRow 3) {k : Context} {sym : Vector Byte 3} {syms : List (Vector Byte 3)}
    (hwf : k.hist.wf) (hroom : k.dp.toNat + syms.length < 2 ^ 24) :
    (vitRun bt k (sym :: syms)).1.hist.read k.dp.toNat = decisionRecord bt sym k.oldBank := by
  have hdp := vitStep_dp_toNat bt 0#32 sym (k := k) (by omega)
  rw [vitRun_cons, vitRun_read bt (by omega) (by omega), vitStep_hist]
  exact read_write_same hwf _ _

/-- There is one least cost. -/
theorem LeastCost.unique {bt : Vector BranchRow 3} {old : Bank} {syms : List (Vector Byte 3)} {e : Fin 256} {m n : Int}
    (h : LeastCost bt old syms e m) (h' : LeastCost bt old syms e n) : m = n := by
  obtain ⟨hle, p, bits, hbits, hend, hm⟩ := h
  obtain ⟨hle', q, other, hother, hend', hn⟩ := h'
  exact le_antisymm ((hle q other hother hend').trans_eq hn.symm) ((hle' p bits hbits hend).trans_eq hm.symm)

/-- The path from `p` with input `bits` leads into `e` at the least cost. -/
def LeastPath (bt : Vector BranchRow 3) (old : Bank) (syms : List (Vector Byte 3)) (e p : Fin 256) (bits : List Bool) :
    Prop :=
  bits.length = syms.length ∧ pathEnd p bits = e ∧ LeastCost bt old syms e (bankAt old p + pathCost bt p syms bits)

/-- A least path from the bank after one step is one from the bank before it, with the transition in front that gave its first
state the new metric. -/
theorem LeastPath.cons {bt : Vector BranchRow 3} {old new : Bank} {sym : Vector Byte 3} {syms : List (Vector Byte 3)}
    {e p q : Fin 256} {b : Bool} {bits : List Bool} {a : Nat} (h : LeastPath bt new syms e q bits) (hr : rangeOk old)
    (hnew : ∀ p, bankAt new p = bankAt (newBank bt sym old) p - a) (hnext : nextState p b = q)
    (hcost : bankAt (newBank bt sym old) q = bankAt old p + transitionCost bt sym p b) :
    LeastPath bt old (sym :: syms) e p (b :: bits) := by
  subst hnext
  obtain ⟨hbits, hend, hleast⟩ := h
  refine ⟨congrArg Nat.succ hbits, hend, ?_⟩
  have hsum : bankAt old p + pathCost bt p (sym :: syms) (b :: bits) =
      bankAt new (nextState p b) + pathCost bt (nextState p b) syms bits + a := by
    rw [hnew, hcost, pathCost]
    push_cast
    omega
  rw [hsum]
  exact hleast.cons hr hnew

/-- The decisions of a run, followed back from `e`, are a least path into `e` (R144, R160). -/
theorem leastPath_survivor (bt : Vector BranchRow 3) {k : Context} {t : Nat} (hs : spreadOk k.oldBank t)
    (hr : rangeOk k.oldBank) (hwf : k.hist.wf) {syms : List (Vector Byte 3)} (hroom : k.dp.toNat + syms.length ≤ 2 ^ 24)
    {hist : Memory} (hhist : (vitRun bt k syms).1.hist = hist) (e : TrellisState) :
    LeastPath bt k.oldBank syms (stateIndex e) (stateIndex (survivorState hist e syms.length k.dp.toNat))
      (survivorBits hist e syms.length k.dp.toNat) := by
  induction syms generalizing k t with
  | nil =>
    have hnil := leastCost_nil bt k.oldBank (stateIndex e)
    exact ⟨rfl, rfl, by simpa [survivorState, survivorBits, pathCost] using hnil⟩
  | cons sym syms ih =>
    rw [List.length_cons] at hroom
    have hread := vitRun_cons_read bt hwf (sym := sym) (syms := syms) (by omega)
    rw [hhist] at hread
    have hdp := vitStep_dp_toNat bt 0#32 sym (k := k) (by omega)
    have hold := vitStep_oldBank bt (k, 0#32) sym
    have hnew := hs.newBank hr bt sym
    rw [vitRun_cons] at hhist
    have hrest := ih (hold ▸ hnew.renorm) (hold ▸ hnew.range) (write_wf hwf ..) (by omega) hhist
    rw [hdp] at hrest
    exact hrest.cons hr (bankAt_vitStep bt k 0#32 sym) (nextState_chainStep hread _) (hr.newBank_chainStep hread _)

/-! ### INIT, UPDATE, CHAINBACK (R117, R141, R161) -/

/-- After INIT an UPDATE within LEN passes its checks: DP is 0 (R141). -/
theorem updateReady_start {s : State} {k : Context} {n : BitVec 24} (st : TrellisState) (hbt : s.btValid = true)
    (hroom : n.toNat ≤ k.len.toNat) (hlen : s.payLen = 3 * n.toNat) : s.updateReady (k.start st) n = true :=
  updateReady_iff.mpr ⟨start_inited k st, hbt, (Nat.zero_add _).trans_le hroom, hlen⟩

/-- Right after INIT, an UPDATE within LEN and a CHAINBACK of all but its last 8 steps answer OK. -/
theorem effects_of_decode {h : Handle} {n : BitVec 24} {nbits : BitVec 16} {pay : List Byte} {s : State} {k : Context}
    (st e : TrellisState) (hs : s.Inv) (hv : s.validCtx? h = some k) (hpay : s.payIn = []) (hbt : s.btValid = true)
    (hn : n.toNat = nbits.toNat + 8) (hroom : n.toNat ≤ k.len.toNat) (hlen : pay.length = 3 * n.toNat) :
    ∃ s1 s2 s3, Effect s (.init h st) s1 ⟨.ok, 0#32, []⟩ ∧
      Effect (s1.withPayload pay) (.update h n) s2 ⟨.ok, (vitRun s.bt (k.start st) (symbolTriples pay)).2, []⟩ ∧
      Effect s2 (.chainback h nbits e) s3
        ⟨.ok, endMetric (vitRun s.bt (k.start st) (symbolTriples pay)).1 e,
          chainOutput (vitRun s.bt (k.start st) (symbolTriples pay)).1.hist nbits.toNat e⟩ := by
  obtain ⟨-, -, ha⟩ := validCtx?_eq_some.mp hv
  have hdepth := hroom.trans (hs.len_le hv)
  have h1 := Effect.init h st k (congrArg List.length hpay) hv
  have hv1 := validCtx?_set_same (t := ((s.setCtx h.toNat (k.start st)).send ⟨.ok, 0#32, []⟩).withPayload pay)
    hv rfl rfl ha
  have hready := updateReady_start (k := k)
    (s := ((s.setCtx h.toNat (k.start st)).send ⟨.ok, 0#32, []⟩).withPayload pay) st hbt hroom hlen
  have h2 := Effect.update h n _ hv1 hready (histInRange_iff.mpr (.inr ((Nat.zero_add _).trans_le hdepth)))
  have hdp : _ = 0 + n.toNat := vitRun_dp_toNat hready
  have hv2 := validCtx?_set_same hv1 h2.cfg_eq rfl ((vitRun_alloc ..).trans ha)
  have hback : nbits.toNat + TAIL ≤ _ := (hn.symm.trans (hdp.trans (Nat.zero_add _)).symm).le
  have hrange : TAIL + nbits.toNat ≤ s.cfg.histDepth := (Nat.add_comm ..).trans_le (hn.symm.trans_le hdepth)
  exact ⟨_, _, _, h1, h2, .chainback h nbits e _ hv2
    (chainbackReady_iff.mpr ⟨rfl, (vitRun_inited ..).trans (start_inited k st), hback⟩)
    (histInRange_iff.mpr (.inr hrange))⟩

/-- Settles O49: the survivor of ENDSTATE is a least path, its first bits are decoded, and its cost is the metric plus the sum of
the adjusts, which is the least cost too. -/
theorem decodedBitsAreThoseOfALeastCostPath : Obligations.DecodedBitsAreThoseOfALeastCostPath := by
  intro h st e nbits pay s k hs hv hpay hbt hroom hlen
  have hbound := nbits.isLt
  have hn : (BitVec.ofNat 24 (nbits.toNat + 8)).toNat = nbits.toNat + 8 := by
    rw [BitVec.toNat_ofNat]
    omega
  obtain ⟨s1, s2, s3, h1, h2, h3⟩ :=
    effects_of_decode st e hs hv hpay hbt hn (hn.trans_le hroom) (hlen.trans (by rw [hn]))
  obtain ⟨-, -, -, hwf, -⟩ := hs.context hv
  have hcount := symbolTriples_length hlen
  have hspread := start_oldBank k st ▸ spreadOk_startBank st
  have hrange := start_oldBank k st ▸ rangeOk_startBank st
  obtain ⟨total, hacc, hleast⟩ := exists_leastCost_vitRun s.bt hspread hrange (symbolTriples pay)
  obtain ⟨hbits, hend, hpath⟩ :=
    leastPath_survivor s.bt hspread hrange hwf (syms := symbolTriples pay)
    (by rw [hcount, start_dp, BitVec.toNat_zero]; omega) rfl e
  have hcost := hpath.unique (hleast (stateIndex e))
  have hvalue := toNat_endMetric (vitRun s.bt (k.start st) (symbolTriples pay)).1 e
  obtain ⟨-, -, hr1⟩ := h1.answered
  obtain ⟨-, -, hr2⟩ := h2.answered
  obtain ⟨-, -, hr3⟩ := h3.answered
  rw [hr2, withPayload_responses, hr1, List.append_assoc, List.append_assoc] at hr3
  refine ⟨s1, s2, s3, _, _, _, h1.exec_eq, h2.exec_eq, h3.exec_eq, hr3, total, _, _, hacc, hbits.trans hcount,
    congrArg Fin.val hend, fun j hj => ?_, ?_, fun q other hother hend' => ?_⟩
  · rw [hcount]
    exact decodedBit_eq_survivorBit _ e hj
  · rw [start_oldBank] at hcost
    omega
  · obtain ⟨hle, -⟩ := hleast (stateIndex e)
    have hother' := hle q other (hother.trans hcount.symm) (Fin.ext hend')
    rw [start_oldBank] at hother'
    omega

end Sys2Proof.Machine
